-- ==== Sys2Proof/Word.lean ====
section
/-! DEFINITION. The word types of the core: bytes, 32-bit words and 10-bit operation words. -/

namespace Sys2Proof

/-- A byte, an unsigned integer below `2^8` (R8). -/
abbrev Byte := BitVec 8

/-- A word, an unsigned integer below `2^32` (R8). -/
abbrev Word := BitVec 32

/-- An operation word: `op` in bits 9 to 6, `idx` in bits 5 to 0 (R76). -/
abbrev OpWord := BitVec 10

/-- Addition of words modulo `2^32`: the carry out of bit 31 is dropped (R10, R13, R160). -/
abbrev add32 (x y : Word) : Word := x + y

end Sys2Proof
end

