-- ==== Sys2Proof/Config.lean ====
section
/-! DEFINITION. What an implementation fixes, the parameter LMAX; and the free values: what the spec leaves without a
value. -/

namespace Sys2Proof.Config

/-- The greatest byte length whose bit length `8·L` fits 64 bits (R7). -/
abbrev lengthBound : Nat := 2 ^ 61 - 1

/-- The values that `LMAX`, the greatest message length the core accepts, may take: `0 <= LMAX <= 2^61 − 1` (R7). -/
abbrev Limit : Type := Fin (2 ^ 61)

/-- The default of `LMAX`, `2^61 − 1` (R7; log entry 8). -/
abbrev LMAX : Limit := ⟨lengthBound, by decide⟩

/-- The register locations whose content START or FIN turns into no value (R36, R180, R184). -/
inductive Loc where
  | len
  | plen
  | n
  | t
  | h (j : Nat)
  | v (j : Nat)
  | w (i : Nat)
deriving DecidableEq, Repr

/-- The content of location `l`, of width `width`, from the discard numbered `occasion` until something writes it.
R36 says that such a location holds neither zero nor any fixed number, so nothing fixes this value (log entry 3). -/
opaque noValue (occasion : Nat) (l : Loc) (width : Nat) : BitVec width

/-- The length field of a message of `len >= 2^61` bytes, which the source calls undefined and U1 forbids to truncate
(R93, 93 U1; log entry 21). -/
opaque noLengthField (len : Nat) : BitVec 64

/-- The `upc` after 255, which R33 and R183 exclude: `upc` does not wrap around (log entry 22). -/
opaque noUpcAfter : BitVec 8

end Sys2Proof.Config
end

