-- ==== Sys2Proof/Machine/State.lean ====
section
/-! DEFINITION. The state of the core with its host, the reasons a step can stop, and the state after reset. -/

namespace Sys2Proof.Machine

/-- `PHASE`, the core's status and its only flag (R32, R34). -/
inductive Phase where
  /-- Reset or aborted; no digest held. -/
  | idle
  /-- A transaction is in progress; the sequencer steps. -/
  | run
  /-- `DIGEST` holds the digest of the last message. -/
  | done
  /-- An internal invariant was violated. -/
  | fatal
deriving DecidableEq, Repr

/-- `FCAUSE`, the cause of the last fatal. The code 3 is reserved and never written, so it has no constructor (R33,
R201, 93 U3). -/
inductive FCause where
  /-- No fatal since the last START, ABORT or reset. -/
  | none
  /-- `PLEN` is not a multiple of 64; raised by `BCHK` only. -/
  | paddedLengthNotBlockMultiple
  /-- A reserved operation word; raised by the decode. -/
  | reservedOperationWord
deriving DecidableEq, Repr

/-- A finite map from natural numbers, as the list of its entries with the keys strictly rising. -/
abbrev Entries (α : Type) := List (Nat × α)

/-- A byte space (R50): the bytes that hold a value, by offset. An offset that is not listed lies outside the space
or holds no value (R36), and reading it stops (log entry 4). -/
abbrev Memory := List Host.Cell

/-- The three byte spaces of the core, which are disjoint (R50). -/
inductive Space where
  | msg
  | pb
  | digest
deriving DecidableEq, Repr

/-- Which registers hold a value: `false` is the spec's "no value" (R36). `H` and `V` are only ever written and
discarded as a whole (R20, R21). -/
structure Held where
  upc : Bool
  len : Bool
  plen : Bool
  n : Bool
  t : Bool
  h : Bool
  v : Bool
  w : Vector Bool 64
deriving DecidableEq, Repr

/-- One move of what stands outside the core (R192): the host's actions, the host's writing of its own message, and
the platform's reset; `wait` leaves the step to the core. -/
inductive Move where
  /-- The outside does nothing; the core takes its step. -/
  | wait
  /-- `START(MSG, L)` (R180). -/
  | start (msg : List Byte) (len : Nat)
  /-- `ABORT` (R185). -/
  | abort
  /-- Reset, raised by the platform (R220). -/
  | reset
  /-- Read `PHASE` and `FCAUSE` (R186 (a)). -/
  | readStatus
  /-- Read `DIGEST` (R186 (b)). -/
  | readDigest
  /-- The host writes its own message space (R50, R57, R187 (b)). -/
  | writeMsg (msg : List Byte)
deriving DecidableEq, Repr

/-- What one read of the host returned: the codes of `PHASE` and `FCAUSE`, or the bytes of `DIGEST` (R186). -/
inductive Seen where
  | status (phase cause : BitVec 2)
  | digest (bytes : List Byte)
deriving DecidableEq, Repr

/-- The state. Fields down to `held` are the spec's; the rest are the model's own (INVENTORY.md, State). -/
structure State where
  /-- `PHASE` (R32). -/
  phase : Phase
  /-- `FCAUSE` (R33). -/
  fcause : FCause
  /-- `upc`, the control-store address of the next operation (R33). -/
  upc : BitVec 8
  /-- `LEN`, the message length in bytes (R30). -/
  len : BitVec 61
  /-- `PLEN`, the padded length in bytes (R30). -/
  plen : BitVec 62
  /-- `N`, the number of blocks (R31). -/
  n : BitVec 56
  /-- `t`, the index of the block being processed (R31). -/
  t : BitVec 56
  /-- `H[0..7]`, the hash state (R20). -/
  h : Vector Word 8
  /-- `V[0..7]`, the working variables `a` to `h` in that order (R21). -/
  v : Vector Word 8
  /-- `W[0..63]`, the message schedule (R22). -/
  w : Vector Word 64
  /-- `MSG`, the host's message (R26). -/
  msg : Memory
  /-- `PB`, the padded buffer (R27). -/
  pb : Memory
  /-- `DIGEST`, the digest space (R28). -/
  digest : Memory
  /-- Which registers hold a value (R36). -/
  held : Held
  /-- The control-store words that differ from the table of R79, by address; none in a correct core (R25, R80, R211;
  log entry 9). -/
  csPatch : Entries OpWord
  /-- What the outside does next, oldest first; when it is empty the outside does nothing more (log entry 6). -/
  moves : List Move
  /-- What the host's reads returned, newest first (log entry 18). -/
  seen : List Seen
  /-- How many discards have drawn free values (log entry 3). -/
  fresh : Nat
  /-- An operation has read a register that held no value, R36's "fault of the model"; nothing clears it (log entry
  1). -/
  noValueRead : Bool
deriving DecidableEq, Repr

/-- Why the machine stops with a fault. Both are the model's own and stop where the core has no behaviour, which is
safe: nothing can be proved about a step that is not taken. -/
inductive Fault where
  /-- Raised by `PAD`, `WLD` and the host's digest read: `n` bytes at `offset` of `space` include one that holds no
  value or lies outside the space (R36, R55; log entry 4). Safe. -/
  | noByte (space : Space) (offset n : Nat)
  /-- Raised by the fetch: `upc` is outside `0 … 142`, where the control store has no word (R25, R33; log entry 10).
  Safe. -/
  | noControlWord (upc : Nat)
deriving DecidableEq, Repr

/-- Why a step is refused. -/
inductive Refusal where
  /-- Raised by `exec` for an instruction that has no meaning in the model. Safe. -/
  | notModelled (mnemonic : String)
  /-- Raised by START: `PHASE` is `RUN` or `FATAL`, or `L > LMAX`, where the core has no transition for it (R180, 93
  U1, U4; log entry 7). Safe. -/
  | startNotAccepted
  /-- Raised by START: the `L` presented is not the length of the message, a host duty (R187 (a); log entry 7).
  Unsafe where a real host breaks the duty. -/
  | startLengthUntrue
  /-- Raised by the host's read of `DIGEST` outside `DONE` (R186 (b), 93 U4; log entry 7). Safe. -/
  | digestNotReadable
  /-- Raised by the host's write of `MSG` in `RUN`, a host duty (R187 (b), R223, 93 U4; log entry 7). Unsafe where a
  real host breaks the duty. -/
  | msgNotWritable
deriving DecidableEq, Repr

/-- No register holds a value (R37). -/
def Held.nothing : Held :=
  { upc := false, len := false, plen := false, n := false, t := false, h := false, v := false
    w := Vector.replicate 64 false }

/-- The state after reset (R37, R220): `PHASE` idle, `FCAUSE` 0, every other piece of mutable state without a value,
`PB` and `DIGEST` empty. The registers' contents are zero (log entry 2); the host's message is empty (log entry 19). -/
def State.reset : State :=
  { phase := .idle
    fcause := .none
    upc := 0
    len := 0
    plen := 0
    n := 0
    t := 0
    h := Vector.replicate 8 0
    v := Vector.replicate 8 0
    w := Vector.replicate 64 0
    msg := []
    pb := []
    digest := []
    held := .nothing
    csPatch := []
    moves := []
    seen := []
    fresh := 0
    noValueRead := false }

end Sys2Proof.Machine
end

