-- ==== Sys2Proof/Machine/Flags.lean ====
section
/-! DEFINITION. The status codes. The core has no condition code: PHASE is its only flag (R34). -/

namespace Sys2Proof.Machine

/-- The 2-bit code of `PHASE` that the host reads (R32). -/
def Phase.code : Phase → BitVec 2
  | .idle => 0#2
  | .run => 1#2
  | .done => 2#2
  | .fatal => 3#2

/-- The 2-bit code of `FCAUSE` that the host reads (R33, R201). -/
def FCause.code : FCause → BitVec 2
  | .none => 0#2
  | .paddedLengthNotBlockMultiple => 1#2
  | .reservedOperationWord => 2#2

/-- The phases in which START is accepted (R180). -/
def Phase.takesStart : Phase → Bool
  | .idle => true
  | .run => false
  | .done => true
  | .fatal => false

end Sys2Proof.Machine
end

