-- ==== Sys2Proof/Machine/Memory.lean ====
section
/-! DEFINITION. Finite maps in canonical form, and the byte spaces over them: MemRead and MemWrite (R12). -/

namespace Sys2Proof.Machine

/-- The entry at key `k`. -/
def Entries.lookup {α : Type} : Entries α → Nat → Option α
  | [], _ => none
  | (a, x) :: rest, k => if k = a then some x else Entries.lookup rest k

/-- Set the entry at key `k`, keeping the keys strictly rising. -/
def Entries.insert {α : Type} : Entries α → Nat → α → Entries α
  | [], k, x => [(k, x)]
  | (a, y) :: rest, k, x =>
    if k < a then (k, x) :: (a, y) :: rest
    else if k = a then (k, x) :: rest
    else (a, y) :: Entries.insert rest k x

/-- Drop the entry at key `k`. -/
def Entries.erase {α : Type} : Entries α → Nat → Entries α
  | [], _ => []
  | (a, y) :: rest, k => if k = a then rest else (a, y) :: Entries.erase rest k

/-- The keys are all at least `lo` and strictly rising. -/
def Entries.risingFrom {α : Type} (lo : Nat) : Entries α → Bool
  | [] => true
  | (a, _) :: rest => decide (lo ≤ a) && Entries.risingFrom (a + 1) rest

/-- The canonical form of a byte space: offsets strictly rising. An unlisted offset holds no value, so no entry
equals what it would read as unlisted. -/
def Memory.wf (m : Memory) : Bool := Entries.risingFrom 0 m

/-- The byte at an offset, none where the space holds no value there (R36). -/
def Memory.read (m : Memory) (a : Nat) : Option Byte := Entries.lookup m a

/-- Store one byte. -/
def Memory.write (m : Memory) (a : Nat) (b : Byte) : Memory := Entries.insert m a b

/-- `MemRead(space, a, n)`: the `n` bytes from offset `a` in ascending order; none unless all of them hold a value
(R12, R55). -/
def Memory.readBytes (m : Memory) (a : Nat) : Nat → Option (List Byte)
  | 0 => some []
  | n + 1 =>
    match m.read a, Memory.readBytes m (a + 1) n with
    | some b, some bs => some (b :: bs)
    | _, _ => none

/-- `MemWrite(space, a, len(s), s)`: the bytes of `s` stored from offset `a` in ascending order (R12). -/
def Memory.writeBytes (m : Memory) (a : Nat) : List Byte → Memory
  | [] => m
  | b :: bs => Memory.writeBytes (m.write a b) (a + 1) bs

/-- The space whose bytes from offset `a` are `s`, and nothing else: what is newly allocated and written whole (R92). -/
def Memory.ofBytes (a : Nat) : List Byte → Memory
  | [] => []
  | b :: bs => (a, b) :: Memory.ofBytes (a + 1) bs

end Sys2Proof.Machine
end

