-- ==== Sys2Proof/Machine/Ops.lean ====
section
/-! DEFINITION. The operations that the meanings share: the result type, advance, fatal entry, the record of reads
of no value, and the discards. -/

namespace Sys2Proof.Machine

/-- What a step or a meaning answers. -/
abbrev Result := Host.Outcome State Fault Refusal

/-- `upc + 1`, exact: R183 has no wrap-around. After 255, a `upc` that R33 and R183 exclude, the 8 bits hold no
successor and the spec states none: it is a free value (log entry 22). -/
def upcAfter (a : BitVec 8) : BitVec 8 := if a.toNat + 1 < 2 ^ 8 then a + 1 else Config.noUpcAfter

/-- `upc <- a` (R12). What is written holds a value from then on (R36). -/
def State.setUpc (s : State) (a : BitVec 8) : State := { s with upc := a, held := { s.held with upc := true } }

/-- `upc <- upc + 1`, what an operation that does not assign `upc` does (R12, R183; at 255 log entry 22). -/
def State.advance (s : State) : State := s.setUpc (upcAfter s.upc)

/-- Taking an exception, `raise Fatal(c)`: `FCAUSE <- c`, `PHASE <- FATAL`, and nothing else; `upc` keeps pointing at
the operation that raised (R203). -/
def State.raiseFatal (s : State) (c : FCause) : State := { s with fcause := c, phase := .fatal }

/-- An operation reads a register; `ok` says whether it holds a value. A read of no value is recorded, never a stop
(R36; log entry 1). -/
def State.noteRead (s : State) (ok : Bool) : State := { s with noValueRead := s.noValueRead || !ok }

/-- Write all of `H` (R20). -/
def State.setH (s : State) (x : Vector Word 8) : State := { s with h := x, held := { s.held with h := true } }

/-- Write all of `V` (R21). -/
def State.setV (s : State) (x : Vector Word 8) : State := { s with v := x, held := { s.held with v := true } }

/-- `W[i] <- x` (R22). -/
def State.setW (s : State) (i : BitVec 6) (x : Word) : State :=
  { s with
    w := s.w.set i.toNat x i.isLt
    held := { s.held with w := s.held.w.set i.toNat true i.isLt } }

/-- `W[i]` (R22). -/
def State.getW (s : State) (i : BitVec 6) : Word := s.w[i.toNat]'i.isLt

/-- Whether `W[i]` holds a value. -/
def State.heldW (s : State) (i : BitVec 6) : Bool := s.held.w[i.toNat]'i.isLt

/-- The working state turns into no value, as START and FIN both do: `H`, `V`, `W`, `PB`, `PLEN`, `N`, `t` (R180,
R184). The registers' contents become free values (log entry 3). -/
def State.discardWork (s : State) : State :=
  { s with
    plen := Config.noValue s.fresh .plen 62
    n := Config.noValue s.fresh .n 56
    t := Config.noValue s.fresh .t 56
    h := Vector.ofFn fun j => Config.noValue s.fresh (.h j.val) 32
    v := Vector.ofFn fun j => Config.noValue s.fresh (.v j.val) 32
    w := Vector.ofFn fun i => Config.noValue s.fresh (.w i.val) 32
    pb := []
    held := { s.held with plen := false, n := false, t := false, h := false, v := false
                          w := Vector.replicate 64 false }
    fresh := s.fresh + 1 }

/-- `LEN` turns into no value, as FIN does beside the working state (R184); drawn before `discardWork` counts on. -/
def State.discardLen (s : State) : State :=
  { s with len := Config.noValue s.fresh .len 61, held := { s.held with len := false } }

/-- What reset and ABORT leave of the core: every piece of its mutable state as after reset (R37, R185, R220). The
control store, the host's message and what the outside has done and will do are not the core's mutable state. -/
def State.coreReset (s : State) : State :=
  { State.reset with
    msg := s.msg
    csPatch := s.csPatch
    moves := s.moves
    seen := s.seen
    fresh := s.fresh
    noValueRead := s.noValueRead }

end Sys2Proof.Machine
end

