-- ==== Sys2Proof/Machine/Blocks.lean ====
section
/-! DEFINITION. Block iteration: the operations BCHK and BNEXT. -/

namespace Sys2Proof.Machine

/-- `BCHK`: Fatal(1) when `PLEN` is not a multiple of 64, and then `N` and `t` are not written; else `N <- PLEN / 64`,
`t <- 0` (R111). -/
def execBchk (s : State) : Result :=
  let s := s.noteRead s.held.plen
  .next (if s.plen.toNat % 64 ≠ 0 then s.raiseFatal .paddedLengthNotBlockMultiple
    else State.advance { s with
      n := BitVec.ofNat 56 (s.plen.toNat / 64)
      t := 0
      held := { s.held with n := true, t := true } })

/-- The control-store address of the head of the block loop, `WLD 0` (R79, R112). -/
def blockLoop : BitVec 8 := 3

/-- The control-store address after the block loop, `SER 0` (R79, R112). -/
def afterBlocks : BitVec 8 := 134

/-- `t <- tn`. The count is exact and fits `t` wherever `tn <= N`; beyond what 56 bits hold R31 and R112 state no
value, and `t` takes a free one (log entry 20). Either way `t` is written and holds a value from then on (R36). -/
def State.setT (s : State) (tn : Nat) : State :=
  let s := { s with held := { s.held with t := true } }
  if tn < 2 ^ 56 then { s with t := BitVec.ofNat 56 tn }
  else { s with t := Config.noValue s.fresh .t 56, fresh := s.fresh + 1 }

/-- `BNEXT`: `t <- t + 1`, then back to `WLD 0` while a block remains, else on to `SER 0` (R112). `t` and `upc`
are written, so both hold a value afterwards, whatever they held before (R36). -/
def execBnext (s : State) : Result :=
  let s := s.noteRead (s.held.t && s.held.n)
  let tn := s.t.toNat + 1
  .next ((s.setT tn).setUpc (if tn < s.n.toNat then blockLoop else afterBlocks))

end Sys2Proof.Machine
end

