-- ==== Sys2Proof/Syntax.lean ====
section
/-! DEFINITION. The eleven operations of the core, one constructor per row of the opcode table. -/

namespace Sys2Proof

/-- An operation with its 6-bit index operand `idx`, where its row has one (R75, R76, R78). -/
inductive Instr where
  /-- Build the padded buffer from the message (R92). -/
  | pad
  /-- Check that the padded length is whole blocks; set `N` and `t` (R111). -/
  | bchk
  /-- Seed the hash state (R144). -/
  | hinit
  /-- Load block word `j` (R122). -/
  | wld (j : BitVec 6)
  /-- Expand schedule word `i` (R123). -/
  | wexp (i : BitVec 6)
  /-- Load the working variables (R145). -/
  | vinit
  /-- Round `i` (R146). -/
  | rnd (i : BitVec 6)
  /-- Fold the working variables into the hash state (R147). -/
  | hadd
  /-- Next block, or leave the block loop (R112). -/
  | bnext
  /-- Serialize hash-state word `j` (R170). -/
  | ser (j : BitVec 6)
  /-- Publish the digest and stop (R184). -/
  | fin
deriving DecidableEq, Repr

end Sys2Proof
end

