-- ==== Sys2Proof/WellFormed.lean ====
section
/-! DEFINITION. The operations that have an operation word: those whose index is in their row's legal set. -/

namespace Sys2Proof

/-- `idx` is in the legal set of the operation's row of the opcode map (R77): 0 to 15 for `WLD`, 16 to 63 for
`WEXP`, 0 to 63 for `RND`, 0 to 7 for `SER`. -/
def Instr.wellFormed : Instr → Bool
  | .pad => true
  | .bchk => true
  | .hinit => true
  | .wld j => decide (j.toNat ≤ 15)
  | .wexp i => decide (16 ≤ i.toNat)
  | .vinit => true
  | .rnd _ => true
  | .hadd => true
  | .bnext => true
  | .ser j => decide (j.toNat ≤ 7)
  | .fin => true

end Sys2Proof
end

