-- ==== Sys2Proof/Decode.lean ====
section
/-! DEFINITION. The decoder of operation words, the encoder, and the decoder as the opcode table numbers its bits. -/

namespace Sys2Proof

/-- The `op` field of an operation word, bits 9 to 6 (R76). -/
def OpWord.op (w : OpWord) : BitVec 4 := w.extractLsb' 6 4

/-- The `idx` field of an operation word, bits 5 to 0 (R76). -/
def OpWord.idx (w : OpWord) : BitVec 6 := w.extractLsb' 0 6

/-- The `op` code of an operation's row (R77). -/
def Instr.opcode : Instr → BitVec 4
  | .pad => 0b0001#4
  | .bchk => 0b0010#4
  | .hinit => 0b0011#4
  | .wld _ => 0b0100#4
  | .wexp _ => 0b0101#4
  | .vinit => 0b0110#4
  | .rnd _ => 0b0111#4
  | .hadd => 0b1000#4
  | .bnext => 0b1001#4
  | .ser _ => 0b1010#4
  | .fin => 0b1011#4

/-- The index operand of an operation, 0 where its row has none (R77, R78). -/
def Instr.index : Instr → BitVec 6
  | .wld j => j
  | .wexp i => i
  | .rnd i => i
  | .ser j => j
  | .pad => 0#6
  | .bchk => 0#6
  | .hinit => 0#6
  | .vinit => 0#6
  | .hadd => 0#6
  | .bnext => 0#6
  | .fin => 0#6

/-- The row of the opcode map that `op` selects, applied to `idx`; none for the reserved values of `op` (R77). The
rows without an operand take no notice of `idx` here: `decode` checks it. -/
def opRow (op : BitVec 4) (idx : BitVec 6) : Option Instr :=
  match op.toNat with
  | 0b0001 => some .pad
  | 0b0010 => some .bchk
  | 0b0011 => some .hinit
  | 0b0100 => some (.wld idx)
  | 0b0101 => some (.wexp idx)
  | 0b0110 => some .vinit
  | 0b0111 => some (.rnd idx)
  | 0b1000 => some .hadd
  | 0b1001 => some .bnext
  | 0b1010 => some (.ser idx)
  | 0b1011 => some .fin
  | _ => none

/-- The decoder: it reads `op`, looks up the row and accepts the word only if `idx` is in the row's legal set;
otherwise the word is reserved and the decoder answers none (R77, R80). -/
def decode (w : OpWord) : Option Instr :=
  match opRow (OpWord.op w) (OpWord.idx w) with
  | some i => if i.wellFormed && i.index == OpWord.idx w then some i else none
  | none => none

/-- The operation word of an operation: `op · 64 + idx` (R76). -/
def encode (i : Instr) : OpWord := i.opcode ++ i.index

/-- The operation read from a word whose bits the opcode table numbers. An operation word has 10 bits (R76), so a
word with a bit set above them is none (log entry 12). -/
def decodeTableWord (nbits w : Nat) : Option Instr :=
  if w < 2 ^ nbits ∧ w < 2 ^ 10 then decode (BitVec.ofNat 10 w) else none

end Sys2Proof
end

