-- ==== Sys2Proof/Machine/WordFunctions.lean ====
section
/-! DEFINITION. The word functions of the schedule and of the rounds. -/

namespace Sys2Proof.Machine

/-- `rotr(x, n)`, 32-bit right rotation, for `1 <= n <= 31` (R10; log entry 14). No other amount occurs (R160), and the
value at one, the rotation by `n mod 32`, is the model's choice (log entry 23). -/
def rotr (x : Word) (n : Nat) : Word := x.rotateRight n

/-- `shr(x, n)`, unsigned right shift, for `1 <= n <= 31`: zeros enter at the top (R10; log entry 14). No other amount
occurs (R160), and the value at one, `x` at 0 and 0 from 32 on, is the model's choice (log entry 23). -/
def shr (x : Word) (n : Nat) : Word := x >>> n

/-- `σ0`, of the schedule (R120). -/
def sigma0 (x : Word) : Word := rotr x 7 ^^^ rotr x 18 ^^^ shr x 3

/-- `σ1`, of the schedule (R121). -/
def sigma1 (x : Word) : Word := rotr x 17 ^^^ rotr x 19 ^^^ shr x 10

/-- `Σ0`, of the rounds (R140). -/
def bigSigma0 (x : Word) : Word := rotr x 2 ^^^ rotr x 13 ^^^ rotr x 22

/-- `Σ1`, of the rounds (R141). -/
def bigSigma1 (x : Word) : Word := rotr x 6 ^^^ rotr x 11 ^^^ rotr x 25

/-- `Ch`, choose (R142). -/
def Ch (x y z : Word) : Word := (x &&& y) ^^^ (~~~x &&& z)

/-- `Maj`, majority (R143). -/
def Maj (x y z : Word) : Word := (x &&& y) ^^^ (x &&& z) ^^^ (y &&& z)

/-- The expanded word of its four sources: `W[i−2]`, `W[i−7]`, `W[i−15]`, `W[i−16]` in that order (R123). -/
def expandWord (w2 w7 w15 w16 : Word) : Word := add32 (add32 (sigma1 w2) w7) (add32 (sigma0 w15) w16)

/-- `T1` of a round (R146). -/
def roundT1 (v : Vector Word 8) (k w : Word) : Word :=
  add32 (add32 (add32 (add32 v[7] (bigSigma1 v[4])) (Ch v[4] v[5] v[6])) k) w

/-- `T2` of a round (R146). -/
def roundT2 (v : Vector Word 8) : Word := add32 (bigSigma0 v[0]) (Maj v[0] v[1] v[2])

/-- One round: all eight right-hand sides use the old values (R146, R231). -/
def round (v : Vector Word 8) (k w : Word) : Vector Word 8 :=
  #v[add32 (roundT1 v k w) (roundT2 v), v[0], v[1], v[2], add32 v[3] (roundT1 v k w), v[4], v[5], v[6]]

/-- The eight sums of two files of eight words, each wrapping on its own (R147). -/
def addWords (x y : Vector Word 8) : Vector Word 8 := Vector.ofFn fun j => add32 x[j] y[j]

end Sys2Proof.Machine
end

