-- ==== Sys2Proof/Machine/Compression.lean ====
section
/-! DEFINITION. The compression round pipeline: the operations HINIT, VINIT, RND and HADD. -/

namespace Sys2Proof.Machine

/-- `HINIT`: `H[j] <- IV[j]` (R144). -/
def execHinit (s : State) : Result := .next (s.setH IV).advance

/-- `VINIT`: `V[j] <- H[j]` (R145). -/
def execVinit (s : State) : Result :=
  let s := s.noteRead s.held.h
  .next (s.setV s.h).advance

/-- `RND i`: one round with `K[i]` and `W[i]` (R146). -/
def execRnd (i : BitVec 6) (s : State) : Result :=
  let s := s.noteRead (s.held.v && s.heldW i)
  .next (s.setV (round s.v (K i) (s.getW i))).advance

/-- `HADD`: `H[j] <- H[j] + V[j]` modulo `2^32` (R147). -/
def execHadd (s : State) : Result :=
  let s := s.noteRead (s.held.h && s.held.v)
  .next (s.setH (addWords s.h s.v)).advance

end Sys2Proof.Machine
end

