-- ==== Sys2Proof/Machine/Operands.lean ====
section
/-! DEFINITION. Operands: the index operand, and the byte order of words and lengths in the byte spaces. -/

namespace Sys2Proof.Machine

/-- `be32(b0, b1, b2, b3)`: the word of four bytes in ascending offset order, most significant first (R11, R53). -/
def be32 (b0 b1 b2 b3 : Byte) : Word := b0 ++ b1 ++ b2 ++ b3

/-- `bytes32(w)`: the four bytes of a word in ascending offset order (R11, R70). -/
def bytes32 (w : Word) : List Byte :=
  [w.extractLsb' 24 8, w.extractLsb' 16 8, w.extractLsb' 8 8, w.extractLsb' 0 8]

/-- `bytes64(v)`: the eight bytes of an unsigned 64-bit integer in ascending offset order (R11, R73). -/
def bytes64 (v : BitVec 64) : List Byte :=
  [v.extractLsb' 56 8, v.extractLsb' 48 8, v.extractLsb' 40 8, v.extractLsb' 32 8,
   v.extractLsb' 24 8, v.extractLsb' 16 8, v.extractLsb' 8 8, v.extractLsb' 0 8]

/-- The unsigned integer that bytes in ascending offset order spell, most significant first: `be32` and `be64` as
numbers (R11). -/
def beNat (bs : List Byte) : Nat := bs.foldl (fun acc b => acc * 256 + b.toNat) 0

/-- The bytes of a list taken in fours, each four a big-endian word (R70, R72); bytes left over, which no
block has, make no word (log entry 23). -/
def wordsOfBytes : List Byte → List Word
  | b0 :: b1 :: b2 :: b3 :: rest => be32 b0 b1 b2 b3 :: wordsOfBytes rest
  | _ => []

/-- The offset in `PB` that `WLD j` reads from in block `t`: `64·t + 4·j` (R78, R122). -/
def blockWordOffset (t : BitVec 56) (j : BitVec 6) : Nat := 64 * t.toNat + 4 * j.toNat

/-- The offset in `DIGEST` that `SER j` writes to: `4·j` (R78, R170). -/
def digestOffset (j : BitVec 6) : Nat := 4 * j.toNat

end Sys2Proof.Machine
end

