-- ==== Sys2Proof/Machine/Padding.lean ====
section
/-! DEFINITION. The padding unit: the operation PAD and the functions it is made of. -/

namespace Sys2Proof.Machine

/-- `Z = (55 − L) mod 64`, the number of zero bytes, as a non-negative remainder (R90). -/
def zeroFill (len : Nat) : Nat := (55 + 64 - len % 64) % 64

/-- `M = L + 1 + Z + 8`, the padded length (R90). -/
def paddedLength (len : Nat) : Nat := len + 1 + zeroFill len + 8

/-- The length field `8·L` (R73), exact in the defined domain `L <= 2^61 − 1`. Outside it R93 and U1 give no value and
forbid `(8·L) mod 2^64`: the field is a free value, and no step gets there (log entry 21). -/
def lengthField (len : Nat) : BitVec 64 :=
  if len ≤ Config.lengthBound then BitVec.ofNat 64 (8 * len) else Config.noLengthField len

/-- `Pad(MSG) = MSG ++ [0x80] ++ [0x00]^Z ++ bytes64(8·L)` (R91); for `L >= 2^61`, which R93 leaves undefined, the
length field is a free value (log entry 21). -/
def pad (msg : List Byte) : List Byte :=
  msg ++ [0x80#8] ++ List.replicate (zeroFill msg.length) 0x00#8 ++ bytes64 (lengthField msg.length)

/-- `PAD`: it reads `LEN` and `MSG[0 .. LEN)`, and writes all of `PB`, newly allocated, and `PLEN` (R92). `LEN` has 61
bits, so `8·LEN` fits the length field, which is exact (R93). -/
def execPad (s : State) : Result :=
  match s.msg.readBytes 0 s.len.toNat with
  | none => .fault (.noByte .msg 0 s.len.toNat)
  | some msg =>
    let s := s.noteRead s.held.len
    .next (State.advance { s with
      pb := Memory.ofBytes 0 (pad msg)
      plen := BitVec.ofNat 62 (paddedLength s.len.toNat)
      held := { s.held with plen := true } })

end Sys2Proof.Machine
end

