-- ==== Sys2Proof/Machine/Schedule.lean ====
section
/-! DEFINITION. The message-schedule word expander: the operations WLD and WEXP. -/

namespace Sys2Proof.Machine

/-- `WLD j`: `W[j]` from the four bytes of `PB` at `64·t + 4·j`, big-endian (R122). An index above 15 has no operation
word but the reserved ones, so it raises Fatal(2) (R80, R211; log entry 11). -/
def execWld (j : BitVec 6) (s : State) : Result :=
  if j.toNat ≤ 15 then
    match s.pb.readBytes (blockWordOffset s.t j) 4 with
    | some [b0, b1, b2, b3] => .next (((s.noteRead s.held.t).setW j (be32 b0 b1 b2 b3)).advance)
    | _ => .fault (.noByte .pb (blockWordOffset s.t j) 4)
  else .next (s.raiseFatal .reservedOperationWord)

/-- `WEXP i`: `W[i]` from `W[i−2]`, `W[i−7]`, `W[i−15]`, `W[i−16]` (R123). An index below 16 has no operation word but
the reserved ones, so it raises Fatal(2) (R80, R211; log entry 11). -/
def execWexp (i : BitVec 6) (s : State) : Result :=
  if 16 ≤ i.toNat then
    let s := s.noteRead (s.heldW (i - 2) && s.heldW (i - 7) && s.heldW (i - 15) && s.heldW (i - 16))
    .next ((s.setW i (expandWord (s.getW (i - 2)) (s.getW (i - 7)) (s.getW (i - 15)) (s.getW (i - 16)))).advance)
  else .next (s.raiseFatal .reservedOperationWord)

end Sys2Proof.Machine
end

