-- ==== Sys2Proof/Machine/Sequencer.lean ====
section
/-! DEFINITION. The sequencer: the operation FIN, the fetch from the control store, and the words that stand in it. -/

namespace Sys2Proof.Machine

/-- `FIN`: `PHASE <- DONE`, and `H, V, W, PB, LEN, PLEN, N, t` turn into no value; `DIGEST` and `upc` stay (R184). -/
def execFin (s : State) : Result := .next { s.discardLen.discardWork with phase := .done }

/-- The fetch `w = CS[upc]` (R181): a patched word where there is one, else the word of the table (R79; log entry 9);
none where the control store has no word. -/
def fetch (s : State) : Option OpWord :=
  match Entries.lookup s.csPatch s.upc.toNat with
  | some w => some w
  | none => CS s.upc.toNat

/-- The patches that make the control store hold `w` at address `a`: none for the table's own word. -/
def patchWord (p : Entries OpWord) (a : Nat) (w : OpWord) : Entries OpWord :=
  if CS a = some w then Entries.erase p a else Entries.insert p a w

/-- The canonical form of the patches: addresses strictly rising, and no word equal to the table's own. -/
def patchWf (p : Entries OpWord) : Bool :=
  Entries.risingFrom 0 p && p.all fun (a, w) => CS a != some w

end Sys2Proof.Machine
end

