-- ==== Sys2Proof/Machine/Serializer.lean ====
section
/-! DEFINITION. The big-endian serializer: the operation SER. -/

namespace Sys2Proof.Machine

/-- `SER j`: the four bytes of `H[j]` to `DIGEST[4·j .. 4·j + 4)` (R170). An index above 7 has no operation word but the
reserved ones, so it raises Fatal(2) (R80, R211; log entry 11). -/
def execSer (j : BitVec 6) (s : State) : Result :=
  if hj : j.toNat < 8 then
    let s := s.noteRead s.held.h
    .next (State.advance { s with digest := s.digest.writeBytes (digestOffset j) (bytes32 s.h[j.toNat]) })
  else .next (s.raiseFatal .reservedOperationWord)

end Sys2Proof.Machine
end

