-- ==== Sys2Proof/Machine/Dispatch.lean ====
section
/-! DEFINITION. The dispatch: one arm per operation. -/

namespace Sys2Proof.Machine

-- The meaning of an operation includes what it does to upc (R183).
def exec (i : Instr) (s : State) : Host.Outcome State Fault Refusal :=
  match i with
  | .pad => Sys2Proof.Machine.execPad s
  | .bchk => Sys2Proof.Machine.execBchk s
  | .hinit => Sys2Proof.Machine.execHinit s
  | .wld j => Sys2Proof.Machine.execWld j s
  | .wexp k => Sys2Proof.Machine.execWexp k s
  | .vinit => Sys2Proof.Machine.execVinit s
  | .rnd k => Sys2Proof.Machine.execRnd k s
  | .hadd => Sys2Proof.Machine.execHadd s
  | .bnext => Sys2Proof.Machine.execBnext s
  | .ser j => Sys2Proof.Machine.execSer j s
  | .fin => Sys2Proof.Machine.execFin s

end Sys2Proof.Machine
end

