-- ==== Sys2Proof/Machine/Host.lean ====
section
/-! DEFINITION. What the outside does to the core: START, ABORT, reset, the host's reads, and the writing of MSG. -/

namespace Sys2Proof.Machine

/-- `START(MSG, L)` on a core whose `LMAX` is `lmax`, any value that R7 allows: accepted in `IDLE` and `DONE` for `L <= lmax`; then `LEN`,
`FCAUSE`, `upc` and `PHASE` are set and all else turns into no value (R180). A false `L` breaks a host duty and has no
move (R187; log entry 7). -/
def hostStart (lmax : Config.Limit) (msg : List Byte) (len : Nat) (s : State) : Result :=
  if s.phase.takesStart && decide (len ≤ lmax.val) then
    if len = msg.length then
      let s := s.discardWork
      .next { s with
        phase := .run
        fcause := .none
        upc := 0
        len := BitVec.ofNat 61 len
        msg := Memory.ofBytes 0 msg
        digest := []
        held := { s.held with upc := true, len := true } }
    else .refused .startLengthUntrue
  else .refused .startNotAccepted

/-- `ABORT`: accepted in every phase; its effect is that of reset (R185). -/
def hostAbort (s : State) : Result := .next s.coreReset

/-- Reset, an event of the platform: it may fall in any phase (R220). -/
def platformReset (s : State) : Result := .next s.coreReset

/-- The host reads `PHASE` and `FCAUSE`, at any time and without effect on the core (R186 (a)). -/
def hostReadStatus (s : State) : Result := .next { s with seen := .status s.phase.code s.fcause.code :: s.seen }

/-- The host reads the 32 bytes of `DIGEST`, only in `DONE` and without effect on the core (R186 (b)). -/
def hostReadDigest (s : State) : Result :=
  if s.phase = .done then
    match s.digest.readBytes 0 32 with
    | some bytes => .next { s with seen := .digest bytes :: s.seen }
    | none => .fault (.noByte .digest 0 32)
  else .refused .digestNotReadable

/-- The host writes its message, not in `RUN` (R50, R57, R187 (b), R223). -/
def hostWriteMsg (msg : List Byte) (s : State) : Result :=
  if s.phase = .run then .refused .msgNotWritable else .next { s with msg := Memory.ofBytes 0 msg }

end Sys2Proof.Machine
end

