-- ==== Sys2Proof/Machine/Step.lean ====
section
/-! DEFINITION. One step of the whole: the core's step, or a move of the outside. -/

namespace Sys2Proof.Machine

/-- What the sequencer does with the operation word it has fetched: decode and execute; a reserved word executes
nothing and raises Fatal(2) (R181, R211). -/
def runWord (w : OpWord) (s : State) : Host.Outcome State Fault Refusal :=
  match decode w with
  | some i => exec i s
  | none => .next (s.raiseFatal .reservedOperationWord)

/-- The core's step. In `RUN` the sequencer fetches `CS[upc]` and executes it; in `IDLE`, `DONE` and `FATAL` the core
waits for the host and nothing changes (R181, R210; log entry 5). -/
def coreStep (s : State) : Host.Outcome State Fault Refusal :=
  match s.phase with
  | .run =>
    match fetch s with
    | some w => runWord w (s.noteRead s.held.upc)
    | none => .fault (.noControlWord s.upc.toNat)
  | .idle => .next s
  | .done => .next s
  | .fatal => .next s

/-- One move of the outside (R192), on a core whose `LMAX` is `lmax` (R7). -/
def outsideMove (lmax : Config.Limit) (m : Move) (s : State) : Host.Outcome State Fault Refusal :=
  match m with
  | .wait => coreStep s
  | .start msg len => hostStart lmax msg len s
  | .abort => hostAbort s
  | .reset => platformReset s
  | .readStatus => hostReadStatus s
  | .readDigest => hostReadDigest s
  | .writeMsg msg => hostWriteMsg msg s

/-- The step relation with its parameter `LMAX` (R7, R39): the next move of the outside if there is one, else the core's
step (log entry 6). -/
def stepWith (lmax : Config.Limit) (s : State) : Host.Outcome State Fault Refusal :=
  match s.moves with
  | [] => coreStep s
  | m :: rest => outsideMove lmax m { s with moves := rest }

/-- One step of a core that has the default `LMAX` (R7; log entry 8). -/
def step (s : State) : Host.Outcome State Fault Refusal := stepWith Config.LMAX s

/-- `s` with the operation word of bits `w` standing in the control store where the next step fetches: in `RUN`, at
`upc`, with no move of the outside before it. A word wider than an operation word stands as the reserved word 0 (log
entries 9, 12). -/
def State.withFetchWord (s : State) (nbits w : Nat) : State :=
  { s with
    phase := .run
    held := { s.held with upc := true }
    csPatch := patchWord s.csPatch s.upc.toNat (if w < 2 ^ nbits ∧ w < 2 ^ 10 then BitVec.ofNat 10 w else 0)
    moves := [] }

end Sys2Proof.Machine
end

