-- ==== Sys2Proof/Machine/Functions.lean ====
section
/-! DEFINITION. The pure functions of the core, apart from its steps: PadByte, Schedule, Compress, Serialize and Digest,
and the runs of operations that the pseudo-operations abbreviate. -/

namespace Sys2Proof.Machine

/-- `PadByte(MSG, L, k)`, the byte of the padded buffer at offset `k < M` (R91; for `L >= 2^61` log entry 21, for
`k >= M` log entry 23). -/
def padByte (msg : List Byte) (k : Nat) : Byte :=
  if k < msg.length then msg.getD k 0
  else if k = msg.length then 0x80#8
  else if k < paddedLength msg.length - 8 then 0x00#8
  else (lengthField msg.length).extractLsb' (56 - 8 * (k - (paddedLength msg.length - 8))) 8

/-- `Block(t) = PB[64·t .. 64·t + 64)`, `t < N` (R72, R110; other `t` log entry 23). -/
def block (pb : List Byte) (t : Nat) : List Byte := (pb.drop (64 * t)).take 64

/-- `N = M / 64`, the number of blocks of a message (R90). -/
def blockCount (len : Nat) : Nat := paddedLength len / 64

/-- One more word of the schedule, from the 16 or more words so far (R124; fewer, log entry 23). -/
def expandNext (w : List Word) : List Word :=
  w ++ [expandWord (w.getD (w.length - 2) 0) (w.getD (w.length - 7) 0) (w.getD (w.length - 15) 0)
    (w.getD (w.length - 16) 0)]

/-- `Schedule(B)`: the 16 big-endian words of the 64-byte block, then 48 expanded words (R124; other lengths of `B` log
entry 23). -/
def schedule (b : List Byte) : List Word := expandNext^[48] (wordsOfBytes b)

/-- `V_i`, `i <= 64`: the working variables after `i` rounds from `h` with the 64 words `w` (R148; beyond, log entry
23). -/
def rounds (h : Vector Word 8) (w : List Word) : Nat → Vector Word 8
  | 0 => h
  | i + 1 => round (rounds h w i) (K (BitVec.ofNat 6 i)) (w.getD i 0)

/-- `Compress(H, B)` (R148). -/
def compress (h : Vector Word 8) (b : List Byte) : Vector Word 8 := addWords h (rounds h (schedule b) 64)

/-- `Serialize(H)` (R171). -/
def serialize (h : Vector Word 8) : List Byte := h.toList.flatMap bytes32

/-- `H_t`, `t <= N`: the hash state after `t` blocks of the message (R190; beyond, log entry 23). -/
def hashState (msg : List Byte) : Nat → Vector Word 8
  | 0 => IV
  | t + 1 => compress (hashState msg t) (block (pad msg) t)

/-- `Digest(MSG)`, for `L <= LMAX` (R190). For `L >= 2^61`, outside its domain, it rests on a free length field and
nothing is known of it (R93, 93 U1; log entry 21). -/
def digest (msg : List Byte) : List Byte := serialize (hashState msg (blockCount msg.length))

/-- `SCHED` expands to `WLD 0..15 ; WEXP 16..63` (R83). -/
def schedOps : List Instr :=
  (List.range 16).map (fun j => .wld (BitVec.ofNat 6 j)) ++ (List.range 48).map (fun i => .wexp (BitVec.ofNat 6 (16 + i)))

/-- `COMPRESS` expands to `SCHED ; VINIT ; RND 0..63 ; HADD` (R83). -/
def compressOps : List Instr :=
  schedOps ++ [.vinit] ++ (List.range 64).map (fun i => .rnd (BitVec.ofNat 6 i)) ++ [.hadd]

/-- `SERIALIZE` expands to `SER 0..7` (R83). -/
def serializeOps : List Instr := (List.range 8).map fun j => .ser (BitVec.ofNat 6 j)

/-- `DIGEST` expands to the whole control store, with `COMPRESS` repeated for each of the `n` blocks (R83). -/
def digestOps (n : Nat) : List Instr :=
  [.pad, .bchk, .hinit] ++ (List.replicate n (compressOps ++ [.bnext])).flatten ++ serializeOps ++ [.fin]

end Sys2Proof.Machine
end

