-- ==== Sys2Proof/Safety.lean ====
section
/-! DEFINITION. The terms the claims use: the pieces of the state and what leaves them unchanged, what each operation
reads and writes, the canonical form, and the states a correct core can be in. -/

namespace Sys2Proof.Safety

open Sys2Proof.Machine

/-- A piece of the state: a register, a byte of a byte space, or a field of the model's own. -/
inductive Piece where
  | phase
  | fcause
  | upc
  | len
  | plen
  | n
  | t
  | h (j : Fin 8)
  | v (j : Fin 8)
  | w (i : Fin 64)
  | byte (space : Space) (offset : Nat)
  | csPatch
  | moves
  | seen
  | fresh
  | noValueRead
deriving DecidableEq, Repr

/-- The bytes of one byte space. -/
def spaceOf (s : State) : Space → Memory
  | .msg => s.msg
  | .pb => s.pb
  | .digest => s.digest

/-- A piece is the same in two states: a register has the same content and holds a value in both or in neither; a byte
reads the same. -/
def Piece.same (s u : State) : Piece → Prop
  | .phase => u.phase = s.phase
  | .fcause => u.fcause = s.fcause
  | .upc => u.upc = s.upc ∧ u.held.upc = s.held.upc
  | .len => u.len = s.len ∧ u.held.len = s.held.len
  | .plen => u.plen = s.plen ∧ u.held.plen = s.held.plen
  | .n => u.n = s.n ∧ u.held.n = s.held.n
  | .t => u.t = s.t ∧ u.held.t = s.held.t
  | .h j => u.h[j] = s.h[j] ∧ u.held.h = s.held.h
  | .v j => u.v[j] = s.v[j] ∧ u.held.v = s.held.v
  | .w i => u.w[i] = s.w[i] ∧ u.held.w[i] = s.held.w[i]
  | .byte space a => (spaceOf u space).read a = (spaceOf s space).read a
  | .csPatch => u.csPatch = s.csPatch
  | .moves => u.moves = s.moves
  | .seen => u.seen = s.seen
  | .fresh => u.fresh = s.fresh
  | .noValueRead => u.noValueRead = s.noValueRead

/-- Every piece outside `changed` is the same in `u` as in `s`. -/
def Unchanged (changed : Piece → Prop) (s u : State) : Prop := ∀ p, ¬ changed p → p.same s u

/-- What fatal entry writes (R203). -/
def fatalWrites (p : Piece) : Prop := p = .phase ∨ p = .fcause

/-- The pieces that operation `i` writes when it runs in `s`: the "Writes" line of its rule, `upc`, and the model's
record of a read of no value. `PAD` writes every byte of `PB`, since what `PB` held is gone. -/
def writes (i : Instr) (s : State) (p : Piece) : Prop :=
  match i with
  | .pad => p = .plen ∨ p = .upc ∨ p = .noValueRead ∨ ∃ a, p = .byte .pb a
  | .bchk =>
    p = .noValueRead ∨ if s.plen.toNat % 64 = 0 then p = .n ∨ p = .t ∨ p = .upc else fatalWrites p
  | .hinit => p = .upc ∨ ∃ j, p = .h j
  | .wld j =>
    if j.toNat ≤ 15 then p = .w j.toFin ∨ p = .upc ∨ p = .noValueRead else fatalWrites p
  | .wexp k =>
    if 16 ≤ k.toNat then p = .w k.toFin ∨ p = .upc ∨ p = .noValueRead else fatalWrites p
  | .vinit => p = .upc ∨ p = .noValueRead ∨ ∃ j, p = .v j
  | .rnd _ => p = .upc ∨ p = .noValueRead ∨ ∃ j, p = .v j
  | .hadd => p = .upc ∨ p = .noValueRead ∨ ∃ j, p = .h j
  | .bnext => p = .t ∨ p = .upc ∨ p = .noValueRead ∨ (p = .fresh ∧ s.t.toNat + 1 = 2 ^ 56)
  | .ser j =>
    if j.toNat ≤ 7 then
      p = .upc ∨ p = .noValueRead ∨ ∃ a, p = .byte .digest a ∧ digestOffset j ≤ a ∧ a < digestOffset j + 4
    else fatalWrites p
  | .fin =>
    p = .phase ∨ p = .len ∨ p = .plen ∨ p = .n ∨ p = .t ∨ p = .fresh ∨ (∃ j, p = .h j) ∨ (∃ j, p = .v j) ∨
      (∃ k, p = .w k) ∨ ∃ a, p = .byte .pb a

/-- The pieces that operation `i` reads when it runs in `s`: the "Reads" line of its rule, and `upc`, the record of
reads of no value and the counter of free values, which the model itself reads. -/
def reads (i : Instr) (s : State) (p : Piece) : Prop :=
  p = .upc ∨ p = .noValueRead ∨ p = .fresh ∨
  match i with
  | .pad => p = .len ∨ ∃ a, p = .byte .msg a ∧ a < s.len.toNat
  | .bchk => p = .plen
  | .hinit => False
  | .wld j => p = .t ∨ ∃ a, p = .byte .pb a ∧ blockWordOffset s.t j ≤ a ∧ a < blockWordOffset s.t j + 4
  | .wexp k =>
    p = .w (k - 2).toFin ∨ p = .w (k - 7).toFin ∨ p = .w (k - 15).toFin ∨ p = .w (k - 16).toFin
  | .vinit => ∃ j, p = .h j
  | .rnd k => p = .w k.toFin ∨ ∃ j, p = .v j
  | .hadd => (∃ j, p = .h j) ∨ ∃ j, p = .v j
  | .bnext => p = .t ∨ p = .n
  | .ser j => ∃ hj : j.toNat < 8, p = .h ⟨j.toNat, hj⟩
  | .fin => False

/-- `upc <- upc + 1`, exact and without wrap-around (R183), and `upc`, being written, holds a value (R36). Nothing is said
of the successor of 255, which is a free value (log entry 22). -/
def Advanced (s u : State) : Prop :=
  (s.upc.toNat + 1 < 2 ^ 8 → u.upc.toNat = s.upc.toNat + 1) ∧ u.held.upc = true

/-- The record of reads of no value after an operation that read registers of which `ok` says whether they all held a
value (R36). -/
def Recorded (ok : Bool) (s u : State) : Prop := u.noValueRead = (s.noValueRead || !ok)

/-- Fatal entry with cause code `c` and nothing else: `FCAUSE <- c`, `PHASE <- FATAL` (R203). -/
def EntersFatal (c : BitVec 2) (s u : State) : Prop :=
  u.phase = .fatal ∧ u.fcause.code = c ∧ Unchanged fatalWrites s u

/-- A core with `PHASE` idle, `FCAUSE` 0 and no value in any other piece of its mutable state (R37). -/
def Emptied (u : State) : Prop :=
  u.phase = .idle ∧ u.fcause = .none ∧ u.held = .nothing ∧ (∀ a, u.pb.read a = none) ∧ ∀ a, u.digest.read a = none

/-- Memory and the control store's patches are in canonical form. -/
abbrev Canonical (s : State) : Prop :=
  s.msg.wf = true ∧ s.pb.wf = true ∧ s.digest.wf = true ∧ patchWf s.csPatch = true

/-- In `RUN`, everything that the operations from `upc` on read has been written (R36): stated by the address `upc` of
the next operation, in the order of the control store (R79, R182). -/
structure Supplied (s : State) : Prop where
  upc_le : s.upc.toNat ≤ 142
  upc_held : s.held.upc = true
  len_held : s.held.len = true
  message : ∀ k, k < s.len.toNat → (s.msg.read k).isSome = true
  padded : 1 ≤ s.upc.toNat → s.held.plen = true ∧ s.plen.toNat = paddedLength s.len.toNat ∧
    ∀ k, (s.pb.read k).isSome = true ↔ k < s.plen.toNat
  blocks : 2 ≤ s.upc.toNat → s.held.n = true ∧ s.held.t = true ∧ 64 * s.n.toNat = s.plen.toNat
  inLoop : 2 ≤ s.upc.toNat → s.upc.toNat ≤ 133 → s.t.toNat < s.n.toNat
  afterLoop : 134 ≤ s.upc.toNat → s.t = s.n
  hash : 3 ≤ s.upc.toNat → s.held.h = true
  schedule : ∀ i : Fin 64, 3 + i.val < s.upc.toNat → s.held.w[i] = true
  working : 68 ≤ s.upc.toNat → s.held.v = true
  serialized : ∀ k, k < 32 → k + 4 * 134 < 4 * s.upc.toNat → (s.digest.read k).isSome = true

/-- The states of a correct core: the control store is the table, no fatal has been raised, no operation has read a
location without a value, and in `DONE` every byte of `DIGEST` is there. -/
structure Good (s : State) : Prop where
  noFatal : s.phase ≠ .fatal
  noCause : s.fcause = .none
  intact : s.csPatch = []
  clean : s.noValueRead = false
  supplied : s.phase = .run → Supplied s
  published : s.phase = .done → ∀ k, k < 32 → (s.digest.read k).isSome = true

/-- The operations of a list executed one after another, each on the state the one before left; the first fault or
refusal ends it. -/
def execAll : List Instr → State → Result
  | [], s => .next s
  | i :: rest, s =>
    match exec i s with
    | .next u => execAll rest u
    | .fault r => .fault r
    | .refused r => .refused r

end Sys2Proof.Safety
end

