-- ==== Sys2Proof/Certificates/Slice0/Obligations.lean ====
section
/-! DEFINITION. The statements about the core. Each docstring names the rule of the spec it formalises. -/

open Sys2Proof Sys2Proof.Machine Sys2Proof.Safety

/-! ## Word arithmetic -/

/-- R10. The word operators are the spec's arithmetic formulas, and `rotr`, `xor`, `and` its bit readings. -/
def Obligations.WordOperatorsFollowTheirFormulas : Prop :=
  ∀ (x y z : Word) (n : Nat), 1 ≤ n → n ≤ 31 →
    (add32 x y).toNat = (x.toNat + y.toNat) % 2 ^ 32 ∧
    add32 (add32 x y) z = add32 x (add32 y z) ∧ add32 x y = add32 y x ∧
    (rotr x n).toNat = (x.toNat / 2 ^ n + x.toNat % 2 ^ n * 2 ^ (32 - n)) % 2 ^ 32 ∧
    (∀ k, k < 32 → (rotr x n).getLsbD k = x.getLsbD ((k + n) % 32)) ∧
    (shr x n).toNat = x.toNat / 2 ^ n ∧
    (∀ k, k < 32 → ((x ^^^ y).getLsbD k).toNat = ((x.getLsbD k).toNat + (y.getLsbD k).toNat) % 2) ∧
    (∀ k, k < 32 → ((x &&& y).getLsbD k).toNat = (x.getLsbD k).toNat * (y.getLsbD k).toNat) ∧
    (~~~x).toNat = (2 ^ 32 - 1) - x.toNat

/-- R11. Big-endian words and lengths: the most significant byte at the lowest offset, and `bytes32`, `bytes64` the
inverses of `be32`, `be64`. -/
def Obligations.BytesAndWordsAreBigEndian : Prop :=
  (∀ b0 b1 b2 b3 : Byte,
    (be32 b0 b1 b2 b3).toNat = b0.toNat * 2 ^ 24 + b1.toNat * 2 ^ 16 + b2.toNat * 2 ^ 8 + b3.toNat ∧
    bytes32 (be32 b0 b1 b2 b3) = [b0, b1, b2, b3]) ∧
  (∀ w : Word, ∃ b0 b1 b2 b3, bytes32 w = [b0, b1, b2, b3] ∧ be32 b0 b1 b2 b3 = w) ∧
  (∀ b0 b1 b2 b3 b4 b5 b6 b7 : Byte,
    beNat [b0, b1, b2, b3, b4, b5, b6, b7] =
      b0.toNat * 2 ^ 56 + b1.toNat * 2 ^ 48 + b2.toNat * 2 ^ 40 + b3.toNat * 2 ^ 32 +
        b4.toNat * 2 ^ 24 + b5.toNat * 2 ^ 16 + b6.toNat * 2 ^ 8 + b7.toNat) ∧
  ∀ v : BitVec 64, (bytes64 v).length = 8 ∧ beNat (bytes64 v) = v.toNat

/-- R120, R121. The small sigmas bit by bit: two rotations and a shift, whose top bits are zero; with the rules'
values. -/
def Obligations.SmallSigmasAreTwoRotationsAndAShift : Prop :=
  (∀ (x : Word) (k : Nat), k < 32 →
    (sigma0 x).getLsbD k =
      (x.getLsbD ((k + 7) % 32) ^^ x.getLsbD ((k + 18) % 32) ^^ (decide (k + 3 < 32) && x.getLsbD (k + 3))) ∧
    (sigma1 x).getLsbD k =
      (x.getLsbD ((k + 17) % 32) ^^ x.getLsbD ((k + 19) % 32) ^^ (decide (k + 10 < 32) && x.getLsbD (k + 10)))) ∧
  sigma0 0 = 0 ∧ sigma0 0x00000001 = 0x02004000 ∧ sigma0 0x80000000 = 0x11002000 ∧ sigma0 0xffffffff = 0x1fffffff ∧
  sigma1 0 = 0 ∧ sigma1 0x00000001 = 0x0000a000 ∧ sigma1 0x80000000 = 0x00205000 ∧ sigma1 0xffffffff = 0x003fffff

/-- R140, R141. The capital sigmas bit by bit: three rotations each; with the rules' values. -/
def Obligations.CapitalSigmasAreThreeRotations : Prop :=
  (∀ (x : Word) (k : Nat), k < 32 →
    (bigSigma0 x).getLsbD k =
      (x.getLsbD ((k + 2) % 32) ^^ x.getLsbD ((k + 13) % 32) ^^ x.getLsbD ((k + 22) % 32)) ∧
    (bigSigma1 x).getLsbD k =
      (x.getLsbD ((k + 6) % 32) ^^ x.getLsbD ((k + 11) % 32) ^^ x.getLsbD ((k + 25) % 32))) ∧
  bigSigma0 0 = 0 ∧ bigSigma0 0x00000001 = 0x40080400 ∧ bigSigma0 0x80000000 = 0x20040200 ∧
  bigSigma0 0xffffffff = 0xffffffff ∧ bigSigma0 0x6a09e667 = 0xce20b47e ∧
  bigSigma1 0 = 0 ∧ bigSigma1 0x00000001 = 0x04200080 ∧ bigSigma1 0x80000000 = 0x02100040 ∧
  bigSigma1 0xffffffff = 0xffffffff ∧ bigSigma1 0x510e527f = 0x3587272b

/-- R142, R143. `Ch` takes `y`'s bit where `x` has a 1 and `z`'s where it has a 0; `Maj` is 1 where at least two of the
three are, and is symmetric; with the rules' values. -/
def Obligations.ChooseAndMajorityBitByBit : Prop :=
  (∀ (x y z : Word) (k : Nat), k < 32 →
    (Ch x y z).getLsbD k = (if x.getLsbD k then y.getLsbD k else z.getLsbD k) ∧
    ((Maj x y z).getLsbD k = true ↔
      2 ≤ (x.getLsbD k).toNat + (y.getLsbD k).toNat + (z.getLsbD k).toNat)) ∧
  (∀ x y z : Word, Maj x y z = Maj y x z ∧ Maj x y z = Maj x z y) ∧
  (∀ y z : Word, Ch 0xffffffff y z = y ∧ Ch 0 y z = z) ∧
  Ch 0xf0f0f0f0 0xcccccccc 0xaaaaaaaa = 0xcacacaca ∧ Ch 0x510e527f 0x9b05688c 0x1f83d9ab = 0x1f85c98c ∧
  Maj 0 0 0 = 0 ∧ Maj 0xffffffff 0x12345678 0x9abcdef0 = 0x9abcdef8 ∧
  Maj 0xf0f0f0f0 0xcccccccc 0xaaaaaaaa = 0xe8e8e8e8 ∧ Maj 0x6a09e667 0xbb67ae85 0x3c6ef372 = 0x3a6fe667

/-- R23, R24. Each `K[i]` is the first 32 bits of the fractional part of the cube root of the `i`-th prime, and each
`IV[j]` of the square root of the `j`-th prime: the root of `p`, scaled by `2^32` and rounded down, is the constant plus
a whole multiple of `2^32`. -/
def Obligations.ConstantTablesAreRootsOfPrimes : Prop :=
  let primes := (List.range 312).filter fun p =>
    decide (2 ≤ p) && (List.range p).all fun d => decide (d < 2) || decide (p % d ≠ 0)
  primes.length = 64 ∧
  (∀ i, i < 64 → ∃ c, c < 8 ∧
    (c * 2 ^ 32 + (K (BitVec.ofNat 6 i)).toNat) ^ 3 ≤ primes.getD i 0 * 2 ^ 96 ∧
    primes.getD i 0 * 2 ^ 96 < (c * 2 ^ 32 + (K (BitVec.ofNat 6 i)).toNat + 1) ^ 3) ∧
  ∀ j : Fin 8, ∃ c, c < 8 ∧
    (c * 2 ^ 32 + IV[j].toNat) ^ 2 ≤ primes.getD j.val 0 * 2 ^ 64 ∧
    primes.getD j.val 0 * 2 ^ 64 < (c * 2 ^ 32 + IV[j].toNat + 1) ^ 2

/-! ## Operation words and the control store -/

/-- R76, R77. Decoding a word gives exactly the operation with a legal index whose word it is: the two directions of
decode and encode at once, for every operation and every word. -/
def Obligations.DecodeIsTheInverseOfEncode : Prop :=
  ∀ (w : OpWord) (i : Instr), decode w = some i ↔ i.wellFormed = true ∧ encode i = w

/-- R80. The words that no row accepts: the reserved values of `op`, and an `idx` outside its row's legal set; 143 of
the 1024 words are legal. -/
def Obligations.ReservedWordsAreThoseOutsideTheMap : Prop :=
  (∀ w : OpWord, decode w = none ↔
    (OpWord.op w = 0b0000#4 ∨ 12 ≤ (OpWord.op w).toNat) ∨
    ((OpWord.op w = 0b0001#4 ∨ OpWord.op w = 0b0010#4 ∨ OpWord.op w = 0b0011#4 ∨ OpWord.op w = 0b0110#4 ∨
      OpWord.op w = 0b1000#4 ∨ OpWord.op w = 0b1001#4 ∨ OpWord.op w = 0b1011#4) ∧ OpWord.idx w ≠ 0) ∨
    (OpWord.op w = 0b0100#4 ∧ 16 ≤ (OpWord.idx w).toNat) ∨
    (OpWord.op w = 0b0101#4 ∧ (OpWord.idx w).toNat ≤ 15) ∨
    (OpWord.op w = 0b1010#4 ∧ 8 ≤ (OpWord.idx w).toNat)) ∧
  (List.range 1024).countP (fun a => (decode (BitVec.ofNat 10 a)).isSome) = 143

/-- R77, R80. Words written out from the opcode map decode to their operations, and reserved ones to none. -/
def Obligations.SpecWordsDecode : Prop :=
  decode 0b0001_000000#10 = some .pad ∧ decode 0b0010_000000#10 = some .bchk ∧
  decode 0b0011_000000#10 = some .hinit ∧ decode 0b0100_001111#10 = some (.wld 15) ∧
  decode 0b0101_010000#10 = some (.wexp 16) ∧ decode 0b0110_000000#10 = some .vinit ∧
  decode 0b0111_111111#10 = some (.rnd 63) ∧ decode 0b1000_000000#10 = some .hadd ∧
  decode 0b1001_000000#10 = some .bnext ∧ decode 0b1010_000111#10 = some (.ser 7) ∧
  decode 0b1011_000000#10 = some .fin ∧ decode 0b0000_000000#10 = none ∧ decode 0b0001_000001#10 = none ∧
  decode 0b0100_010000#10 = none ∧ decode 0b0101_001111#10 = none ∧ decode 0b1010_001000#10 = none ∧
  decode 0b1111_111111#10 = none

/-- R79, R83. The control store holds the 143 words of the listing: the expansion of `DIGEST` for one block, each
operation at its address; outside `0 … 142` there is no word. -/
def Obligations.ControlStoreHoldsTheListing : Prop :=
  (digestOps 1).length = 143 ∧
  (∀ a, a < 143 → (CS a).bind decode = (digestOps 1)[a]?) ∧
  ∀ a, 143 ≤ a → CS a = none

/-! ## The step -/

/-- After R181. A step in `RUN` fetches `CS[upc]`, decodes it and executes the operation; a reserved word raises Fatal(2);
outside `RUN` the sequencer has no step. The model's choices in it: the read of `upc` is recorded if it holds no value (log
entry 1), a `wait` of the outside leaves the step to the core (log entry 6), and no step is rendered as a step that
changes nothing of the core (log entry 5). -/
def Obligations.StepRunsTheDecodedOperation : Prop :=
  (∀ (s : State) (w : OpWord) (i : Instr), s.phase = .run → fetch s = some w → decode w = some i →
    (s.moves = [] → step s = exec i (s.noteRead s.held.upc)) ∧
    (∀ rest, s.moves = .wait :: rest → step s = exec i (State.noteRead { s with moves := rest } s.held.upc))) ∧
  (∀ s : State, s.csPatch = [] → fetch s = CS s.upc.toNat) ∧
  (∀ (s : State) (w : OpWord), s.phase = .run → fetch s = some w → decode w = none →
    (s.moves = [] → step s = .next ((s.noteRead s.held.upc).raiseFatal .reservedOperationWord)) ∧
    (∀ rest, s.moves = .wait :: rest →
      step s = .next ((State.noteRead { s with moves := rest } s.held.upc).raiseFatal .reservedOperationWord))) ∧
  ∀ s : State, s.phase ≠ .run →
    (s.moves = [] → step s = .next s) ∧ (∀ rest, s.moves = .wait :: rest → step s = .next { s with moves := rest })

/-- R211. A reserved word executes nothing and raises Fatal(2): `FCAUSE` 2, `PHASE` FATAL and nothing else, but for the
record of a read of `upc` that holds no value (log entry 1). -/
def Obligations.ReservedWordRaisesFatalTwo : Prop :=
  ∀ (s : State) (w : OpWord), s.phase = .run → s.moves = [] → fetch s = some w → decode w = none →
    ∃ u, step s = .next u ∧ u.phase = .fatal ∧ u.fcause.code = 2#2 ∧ Recorded s.held.upc s u ∧
      Unchanged (fun p => fatalWrites p ∨ p = .noValueRead) s u

/-- The model's choice (log entry 10): at a `upc` outside `0 … 142` the control store has no word (R25), and the step
stops with a fault. -/
def Obligations.NoControlWordOutsideTheStore : Prop :=
  ∀ s : State, s.phase = .run → s.moves = [] → s.csPatch = [] → 143 ≤ s.upc.toNat →
    step s = .fault (.noControlWord s.upc.toNat)

/-- The model's own (log entry 9): a word placed where the next step fetches is the operation that the next step runs. -/
def Obligations.PlacedWordRunsNext : Prop :=
  ∀ (s : State) (w : Nat) (i : Instr), patchWf s.csPatch = true → decodeTableWord 16 w = some i →
    step (s.withFetchWord 16 w) = exec i (s.withFetchWord 16 w)

/-- R183. `upc` after every operation: one more, unless the operation is `BNEXT`, which sets 3 or 134, or `FIN`, which
leaves it, or it raised, which leaves it; and in a correct core `upc` stays within `0 … 142` in `RUN`. Nothing is said of
the successor of 255, which the rule excludes (log entry 22). -/
def Obligations.UpcAdvancesByTheRule : Prop :=
  (∀ (i : Instr) (s u : State), exec i s = .next u →
    (i = .bnext → u.upc = 3 ∨ u.upc = 134) ∧
    (i = .fin → u.upc = s.upc ∧ u.phase ≠ .run) ∧
    (i ≠ .bnext → i ≠ .fin → u.phase = s.phase → s.phase = .run → s.upc.toNat + 1 < 2 ^ 8 →
      u.upc.toNat = s.upc.toNat + 1) ∧
    (s.phase = .run → u.phase = .fatal → u.upc = s.upc)) ∧
  ∀ s u : State, Good s → step s = .next u → u.phase = .run → u.upc.toNat ≤ 142

/-! ## The padding unit -/

/-- R90. `M` is `64 · ceil((L + 9) / 64)`, the least multiple of 64 not below `L + 9`; `Z` is `(55 − L) mod 64`; and `N`
is `M / 64`, which is `floor((L + 8) / 64) + 1`. -/
def Obligations.PaddedLengthIsTheLeastMultiple : Prop :=
  ∀ len : Nat,
    paddedLength len = 64 * ((len + 9 + 63) / 64) ∧ 64 ∣ paddedLength len ∧ len + 9 ≤ paddedLength len ∧
    (∀ m, 64 ∣ m → len + 9 ≤ m → paddedLength len ≤ m) ∧
    (zeroFill len : Int) = (55 - (len : Int)) % 64 ∧ paddedLength len = len + 1 + zeroFill len + 8 ∧
    blockCount len = paddedLength len / 64 ∧ blockCount len = (len + 8) / 64 + 1 ∧ 1 ≤ blockCount len

/-- R94. The branches of the padding by `L mod 64`. -/
def Obligations.PaddingBranchesByResidue : Prop :=
  ∀ len : Nat,
    (len % 64 = 0 → zeroFill len = 55 ∧ paddedLength len = len + 64) ∧
    (1 ≤ len % 64 → len % 64 ≤ 54 → zeroFill len = 55 - len % 64 ∧ paddedLength len = 64 * (len / 64) + 64) ∧
    (len % 64 = 55 → zeroFill len = 0 ∧ paddedLength len = len + 9) ∧
    (56 ≤ len % 64 → zeroFill len = 119 - len % 64 ∧ paddedLength len = 64 * (len / 64) + 128) ∧
    (len % 64 ≤ 55 → paddedLength len = 64 * (len / 64) + 64)

/-- R91. `Pad(MSG)` is the padded byte function at every offset, and has `M` bytes. (Of a length field beyond the defined
domain it says only that both take the same free value, log entry 21.) -/
def Obligations.PadIsThePaddedByteFunction : Prop :=
  ∀ msg : List Byte, (pad msg).length = paddedLength msg.length ∧
    ∀ k, k < paddedLength msg.length → (pad msg)[k]? = some (padByte msg k)

/-- R95. What the padded buffer keeps: whole blocks, its bounds, the length field, that the message can be recovered
from it, and its length in bits. -/
def Obligations.PaddedBufferInvariants : Prop :=
  (∀ msg : List Byte, msg.length < 2 ^ 61 →
    (pad msg).length % 64 = 0 ∧ 64 ≤ (pad msg).length ∧
    msg.length + 9 ≤ (pad msg).length ∧ (pad msg).length ≤ msg.length + 72 ∧
    (pad msg).take msg.length = msg ∧ (pad msg)[msg.length]? = some 0x80#8 ∧
    (∀ k, msg.length < k → k < (pad msg).length - 8 → (pad msg)[k]? = some 0x00#8) ∧
    beNat ((pad msg).drop ((pad msg).length - 8)) = 8 * msg.length ∧
    msg.length = beNat ((pad msg).drop ((pad msg).length - 8)) / 8 ∧
    8 * (pad msg).length = 8 * msg.length + 1 + (8 * zeroFill msg.length + 7) + 64 ∧
    (8 * msg.length + 1 + (8 * zeroFill msg.length + 7)) % 512 = 448 ∧
    8 * (pad msg).length - 64 - 8 = 8 * (msg.length + zeroFill msg.length)) ∧
  ∀ m₁ m₂ : List Byte, m₁.length < 2 ^ 61 → m₂.length < 2 ^ 61 → pad m₁ = pad m₂ → m₁ = m₂

/-- R92. `PAD` writes all of `PB`, `M` bytes of the padded byte function and no others, and `PLEN`; it changes nothing
else. -/
def Obligations.PadBuildsThePaddedBuffer : Prop :=
  (∀ (s : State) (msg : List Byte), msg.length = s.len.toNat → (∀ k, k < msg.length → s.msg.read k = msg[k]?) →
    ∃ u, exec .pad s = .next u ∧
      u.plen.toNat = paddedLength s.len.toNat ∧ u.held.plen = true ∧
      (∀ k, u.pb.read k = if k < paddedLength s.len.toNat then some (padByte msg k) else none) ∧
      Advanced s u ∧ Recorded s.held.len s u ∧ Unchanged (writes .pad s) s u) ∧
  encode .pad = 0b0001_000000#10 ∧ CS 0 = some 0x040#10 ∧
  pad [0x61#8, 0x62#8, 0x63#8] =
    [0x61#8, 0x62#8, 0x63#8, 0x80#8] ++ List.replicate 52 0x00#8 ++ List.replicate 7 0x00#8 ++ [0x18#8]

/-! ## Block iteration -/

/-- R111. `BCHK` sets `N` to `PLEN / 64` and `t` to 0 when `PLEN` is a multiple of 64; otherwise it raises Fatal(1) and
writes neither. -/
def Obligations.BchkCountsBlocksOrRaisesFatalOne : Prop :=
  (∀ s : State, s.plen.toNat % 64 = 0 →
    ∃ u, exec .bchk s = .next u ∧ u.n.toNat = s.plen.toNat / 64 ∧ u.t = 0 ∧ u.held.n = true ∧ u.held.t = true ∧
      Advanced s u ∧ Recorded s.held.plen s u ∧ Unchanged (writes .bchk s) s u) ∧
  (∀ s : State, s.plen.toNat % 64 ≠ 0 →
    ∃ u, exec .bchk s = .next u ∧ u.phase = .fatal ∧ u.fcause.code = 1#2 ∧ Recorded s.held.plen s u ∧
      Unchanged (fun p => fatalWrites p ∨ p = .noValueRead) s u) ∧
  encode .bchk = 0b0010_000000#10 ∧ CS 1 = some 0x080#10

/-- R112. `BNEXT` adds one to `t` and goes back to 3 while `t + 1 < N`, else on to 134; both are written, so both
hold a value then (R36); it changes nothing else. A count that 56 bits do not hold, which `t <= N` excludes, leaves `t` a
free value (log entry 20), of which nothing is said. -/
def Obligations.BnextLoopsWhileABlockRemains : Prop :=
  (∀ s : State, ∃ u, exec .bnext s = .next u ∧
    (s.t.toNat + 1 < 2 ^ 56 → u.t.toNat = s.t.toNat + 1) ∧ u.held.t = true ∧
    (s.t.toNat + 1 < s.n.toNat → u.upc = 3) ∧ (¬ s.t.toNat + 1 < s.n.toNat → u.upc = 134) ∧
    u.held.upc = true ∧ Recorded (s.held.t && s.held.n) s u ∧ Unchanged (writes .bnext s) s u) ∧
  encode .bnext = 0b1001_000000#10 ∧ CS 133 = some 0x240#10

/-! ## The schedule expander -/

/-- R122. `WLD j` loads `W[j]` from the four bytes of `PB` at `64·t + 4·j`, most significant first, and changes nothing
else. -/
def Obligations.WldLoadsABigEndianWord : Prop :=
  (∀ (s : State) (j : BitVec 6) (b0 b1 b2 b3 : Byte), j.toNat ≤ 15 →
    s.pb.read (64 * s.t.toNat + 4 * j.toNat) = some b0 →
    s.pb.read (64 * s.t.toNat + 4 * j.toNat + 1) = some b1 →
    s.pb.read (64 * s.t.toNat + 4 * j.toNat + 2) = some b2 →
    s.pb.read (64 * s.t.toNat + 4 * j.toNat + 3) = some b3 →
    ∃ u, exec (.wld j) s = .next u ∧
      (u.getW j).toNat = b0.toNat * 2 ^ 24 + b1.toNat * 2 ^ 16 + b2.toNat * 2 ^ 8 + b3.toNat ∧
      u.heldW j = true ∧ Advanced s u ∧ Recorded s.held.t s u ∧ Unchanged (writes (.wld j) s) s u) ∧
  ∀ j : BitVec 6, j.toNat ≤ 15 →
    (encode (.wld j)).toNat = 0x100 + j.toNat ∧ CS (3 + j.toNat) = some (encode (.wld j))

/-- R123. `WEXP i` expands `W[i]` from `W[i−2]`, `W[i−7]`, `W[i−15]`, `W[i−16]`, wrapping, and changes nothing else. -/
def Obligations.WexpExpandsFromFourEarlierWords : Prop :=
  (∀ (s : State) (i : BitVec 6) (_ : 16 ≤ i.toNat),
    have hi := i.isLt
    ∃ u, exec (.wexp i) s = .next u ∧
      u.getW i =
        add32 (add32 (sigma1 s.w[i.toNat - 2]) s.w[i.toNat - 7])
          (add32 (sigma0 s.w[i.toNat - 15]) s.w[i.toNat - 16]) ∧
      u.heldW i = true ∧ Advanced s u ∧
      Recorded (s.held.w[i.toNat - 2] && s.held.w[i.toNat - 7] && s.held.w[i.toNat - 15] && s.held.w[i.toNat - 16])
        s u ∧
      Unchanged (writes (.wexp i) s) s u) ∧
  ∀ i : BitVec 6, 16 ≤ i.toNat →
    (encode (.wexp i)).toNat = 0x140 + i.toNat ∧ CS (3 + i.toNat) = some (encode (.wexp i))

/-- R124. `SCHED` on a state whose block `t` holds the bytes `b` leaves `W` equal to `Schedule(b)`, whose words are the
block's 16 big-endian words and then the recurrence; it changes nothing else. -/
def Obligations.SchedComputesTheSchedule : Prop :=
  (∀ b : List Byte, b.length = 64 →
    (schedule b).length = 64 ∧
    (∀ j, j < 16 → (schedule b)[j]? =
      some (be32 (b.getD (4 * j) 0) (b.getD (4 * j + 1) 0) (b.getD (4 * j + 2) 0) (b.getD (4 * j + 3) 0))) ∧
    ∀ i, 16 ≤ i → i < 64 → (schedule b)[i]? =
      some (add32 (add32 (sigma1 ((schedule b).getD (i - 2) 0)) ((schedule b).getD (i - 7) 0))
        (add32 (sigma0 ((schedule b).getD (i - 15) 0)) ((schedule b).getD (i - 16) 0)))) ∧
  ∀ (s : State) (b : List Byte), b.length = 64 → (∀ k, k < 64 → s.pb.read (64 * s.t.toNat + k) = b[k]?) →
    ∃ u, execAll schedOps s = .next u ∧
      (∀ i : Fin 64, (schedule b)[i.val]? = some u.w[i] ∧ u.held.w[i] = true) ∧
      Recorded s.held.t s u ∧
      Unchanged (fun p => p = .upc ∨ p = .noValueRead ∨ ∃ i, p = .w i) s u

/-! ## The compression pipeline -/

/-- R144. `HINIT` seeds `H` from `IV` and changes nothing else. -/
def Obligations.HinitSeedsTheHashState : Prop :=
  (∀ s : State, ∃ u, exec .hinit s = .next u ∧ (∀ j : Fin 8, u.h[j] = IV[j]) ∧ u.held.h = true ∧
    Advanced s u ∧ Unchanged (writes .hinit s) s u) ∧
  IV[0] = 0x6a09e667#32 ∧ IV[7] = 0x5be0cd19#32 ∧
  encode .hinit = 0b0011_000000#10 ∧ CS 2 = some 0x0C0#10

/-- R145. `VINIT` copies `H` into `V` and changes nothing else. -/
def Obligations.VinitLoadsTheWorkingVariables : Prop :=
  (∀ s : State, ∃ u, exec .vinit s = .next u ∧ (∀ j : Fin 8, u.v[j] = s.h[j]) ∧ u.held.v = true ∧
    Advanced s u ∧ Recorded s.held.h s u ∧ Unchanged (writes .vinit s) s u) ∧
  encode .vinit = 0b0110_000000#10 ∧ CS 67 = some 0x180#10

/-- R146. `RND i` is one round with `K[i]` and `W[i]`, all from the old values, wrapping, and it changes nothing but
`V`; with the rule's worked example. -/
def Obligations.RndIsOneRound : Prop :=
  (∀ (s : State) (i : BitVec 6), ∃ u, exec (.rnd i) s = .next u ∧
    (∀ T1 T2 : Nat,
      T1 = (s.v[7].toNat + (bigSigma1 s.v[4]).toNat + (Ch s.v[4] s.v[5] s.v[6]).toNat + (K i).toNat +
        (s.getW i).toNat) % 2 ^ 32 →
      T2 = ((bigSigma0 s.v[0]).toNat + (Maj s.v[0] s.v[1] s.v[2]).toNat) % 2 ^ 32 →
      u.v[7] = s.v[6] ∧ u.v[6] = s.v[5] ∧ u.v[5] = s.v[4] ∧ u.v[4].toNat = (s.v[3].toNat + T1) % 2 ^ 32 ∧
      u.v[3] = s.v[2] ∧ u.v[2] = s.v[1] ∧ u.v[1] = s.v[0] ∧ u.v[0].toNat = (T1 + T2) % 2 ^ 32) ∧
    u.held.v = true ∧ Advanced s u ∧ Recorded (s.held.v && s.heldW i) s u ∧ Unchanged (writes (.rnd i) s) s u) ∧
  (∀ i : BitVec 6, (encode (.rnd i)).toNat = 0x1C0 + i.toNat ∧ CS (68 + i.toNat) = some (encode (.rnd i))) ∧
  round IV (K 0) 0x61626380#32 =
    #v[0x5d6aebcd#32, 0x6a09e667#32, 0xbb67ae85#32, 0x3c6ef372#32,
       0xfa2a4622#32, 0x510e527f#32, 0x9b05688c#32, 0x1f83d9ab#32]

/-- R147. `HADD` adds `V` into `H` word by word, each sum wrapping on its own, and changes nothing else. -/
def Obligations.HaddFoldsTheWorkingVariables : Prop :=
  (∀ s : State, ∃ u, exec .hadd s = .next u ∧
    (∀ j : Fin 8, u.h[j].toNat = (s.h[j].toNat + s.v[j].toNat) % 2 ^ 32) ∧ u.held.h = true ∧
    Advanced s u ∧ Recorded (s.held.h && s.held.v) s u ∧ Unchanged (writes .hadd s) s u) ∧
  encode .hadd = 0b1000_000000#10 ∧ CS 132 = some 0x200#10

/-- R148. One pass of the loop body takes `H` to `Compress(H, B)` for the block `t` that `PB` holds, and changes nothing
but `H`, `V` and `W`. -/
def Obligations.CompressFoldsOneBlock : Prop :=
  ∀ (s : State) (b : List Byte), b.length = 64 → (∀ k, k < 64 → s.pb.read (64 * s.t.toNat + k) = b[k]?) →
    ∃ u, execAll compressOps s = .next u ∧ u.h = compress s.h b ∧
      (∀ j : Fin 8, (compress s.h b)[j] = add32 s.h[j] (rounds s.h (schedule b) 64)[j]) ∧
      u.held.h = true ∧ Recorded (s.held.t && s.held.h) s u ∧
      Unchanged (fun p => p = .upc ∨ p = .noValueRead ∨ (∃ j, p = .h j) ∨ (∃ j, p = .v j) ∨ ∃ i, p = .w i) s u

/-! ## The serializer -/

/-- R170. `SER j` stores the four bytes of `H[j]` at `4·j` of `DIGEST`, most significant first, and changes nothing
else: every byte outside the four reads as before. -/
def Obligations.SerStoresFourDigestBytes : Prop :=
  (∀ (s : State) (j : BitVec 6) (hj : j.toNat < 8),
    ∃ u, exec (.ser j) s = .next u ∧
      u.digest.read (4 * j.toNat) = some (s.h[j.toNat].extractLsb' 24 8) ∧
      u.digest.read (4 * j.toNat + 1) = some (s.h[j.toNat].extractLsb' 16 8) ∧
      u.digest.read (4 * j.toNat + 2) = some (s.h[j.toNat].extractLsb' 8 8) ∧
      u.digest.read (4 * j.toNat + 3) = some (s.h[j.toNat].extractLsb' 0 8) ∧
      Advanced s u ∧ Recorded s.held.h s u ∧ Unchanged (writes (.ser j) s) s u) ∧
  (∀ j : BitVec 6, j.toNat < 8 →
    (encode (.ser j)).toNat = 0x280 + j.toNat ∧ CS (134 + j.toNat) = some (encode (.ser j)))

/-- R171. `SERIALIZE` leaves `DIGEST` equal to `Serialize(H)`, 32 bytes, from which `H` can be read back. -/
def Obligations.SerializeWritesTheDigest : Prop :=
  (∀ s : State, ∃ u, execAll serializeOps s = .next u ∧
    (∀ k, k < 32 → u.digest.read k = (serialize s.h)[k]?) ∧ Recorded s.held.h s u ∧
    Unchanged (fun p => p = .upc ∨ p = .noValueRead ∨ ∃ a, a < 32 ∧ p = .byte .digest a) s u) ∧
  (∀ h : Vector Word 8, (serialize h).length = 32 ∧
    ∀ j : Fin 8, ∃ b0 b1 b2 b3, (serialize h)[4 * j.val]? = some b0 ∧ (serialize h)[4 * j.val + 1]? = some b1 ∧
      (serialize h)[4 * j.val + 2]? = some b2 ∧ (serialize h)[4 * j.val + 3]? = some b3 ∧
      h[j] = be32 b0 b1 b2 b3) ∧
  (∀ h₁ h₂ : Vector Word 8, serialize h₁ = serialize h₂ → h₁ = h₂) ∧
  serialize IV =
    [0x6a#8, 0x09#8, 0xe6#8, 0x67#8, 0xbb#8, 0x67#8, 0xae#8, 0x85#8, 0x3c#8, 0x6e#8, 0xf3#8, 0x72#8, 0xa5#8, 0x4f#8,
     0xf5#8, 0x3a#8] ++
    [0x51#8, 0x0e#8, 0x52#8, 0x7f#8, 0x9b#8, 0x05#8, 0x68#8, 0x8c#8, 0x1f#8, 0x83#8, 0xd9#8, 0xab#8, 0x5b#8, 0xe0#8,
     0xcd#8, 0x19#8]

/-! ## The end of a transaction -/

/-- R184. `FIN` sets `PHASE` to DONE and leaves the working state without a value; `DIGEST` and `upc` stay. -/
def Obligations.FinPublishesAndDiscards : Prop :=
  (∀ s : State, ∃ u, exec .fin s = .next u ∧ u.phase = .done ∧
    u.held.h = false ∧ u.held.v = false ∧ (∀ i : Fin 64, u.held.w[i] = false) ∧ (∀ a, u.pb.read a = none) ∧
    u.held.len = false ∧ u.held.plen = false ∧ u.held.n = false ∧ u.held.t = false ∧
    (∀ a, u.digest.read a = s.digest.read a) ∧ u.upc = s.upc ∧ Unchanged (writes .fin s) s u) ∧
  encode .fin = 0b1011_000000#10 ∧ CS 142 = some 0x2C0#10

/-- The model's choice (log entry 11), after R80 and R211: an operation with an index outside its row's legal set,
which no decoding gives, raises Fatal(2) and does nothing else. -/
def Obligations.IllegalIndexRaisesFatalTwo : Prop :=
  ∀ (i : Instr) (s : State), i.wellFormed = false → ∃ u, exec i s = .next u ∧ EntersFatal 2#2 s u

/-- R190. The two digests that the source states. -/
def Obligations.DigestKnownAnswers : Prop :=
  beNat (digest []) = 0xe3b0c44298fc1c149afbf4c8996fb92427ae41e4649b934ca495991b7852b855 ∧
  beNat (digest [0x61#8, 0x62#8, 0x63#8]) = 0xba7816bf8f01cfea414140de5dae2223b00361a396177a9cb410ff61f20015ad

/-- R188, R191. From any state in `IDLE` or `DONE` whose control store is the table, an accepted START followed by
`12 + 131·N` steps of the core reaches `DONE`, and the host's read returns `Digest(MSG)`; every step before ends in `RUN`;
no fatal is raised and no location without a value is read. START and the read are steps with a move of the outside (log
entry 6), and the core is the one of the default `LMAX`, the model's choice (log entry 8). -/
def Obligations.TransactionComputesTheDigest : Prop :=
  ∀ (s : State) (msg : List Byte), s.phase.takesStart = true → s.csPatch = [] → msg.length ≤ Config.LMAX.val →
    ∃ s₀ u, step { s with moves := [.start msg msg.length] } = .next s₀ ∧
      core.run (12 + 131 * blockCount msg.length) s₀ = .next u ∧
      u.phase = .done ∧ u.fcause = .none ∧ u.noValueRead = s.noValueRead ∧
      step { u with moves := [.readDigest] } = .next { u with seen := .digest (digest msg) :: s.seen } ∧
      ∀ k, k < 12 + 131 * blockCount msg.length → ∃ r, core.run k s₀ = .next r ∧ r.phase = .run

/-! ## Reset and the host -/

/-- R37. The state after reset: `PHASE` IDLE, `FCAUSE` 0, no value in `upc`, `LEN`, `PLEN`, `N`, `t`, `H`, `V`, `W`, `PB`,
`DIGEST`, and the control store its table. The zero contents of the registers are the model's (log entry 2) and not
stated here. -/
def Obligations.ResetLeavesNoValue : Prop :=
  Emptied State.reset ∧ State.reset.phase.code = 0#2 ∧ State.reset.fcause.code = 0#2 ∧
  State.reset.held.upc = false ∧ State.reset.held.len = false ∧ State.reset.held.plen = false ∧
  State.reset.held.n = false ∧ State.reset.held.t = false ∧ State.reset.held.h = false ∧
  State.reset.held.v = false ∧ (∀ i : Fin 64, State.reset.held.w[i] = false) ∧
  ∀ a : BitVec 8, fetch { State.reset with upc := a } = CS a.toNat

/-- R220. Reset, in any phase: `PHASE` IDLE, `FCAUSE` 0, all other mutable state of the core without a value; the control
store and the host's message stay; then the core does nothing until the outside moves. -/
def Obligations.ResetMayFallInAnyPhase : Prop :=
  ∀ (s : State) (rest : List Move), s.moves = .reset :: rest →
    ∃ u, step s = .next u ∧ Emptied u ∧ u.csPatch = s.csPatch ∧ u.msg = s.msg ∧ u.moves = rest ∧
      u.seen = s.seen ∧ u.noValueRead = s.noValueRead ∧ coreStep u = .next u

/-- R185. ABORT, in every phase: `PHASE` IDLE, `FCAUSE` 0, all other mutable state of the core without a value; the
control store and the host's message stay; its effect is that of reset. -/
def Obligations.AbortHasTheEffectOfReset : Prop :=
  ∀ (s : State) (rest : List Move), s.moves = .abort :: rest →
    ∃ u, step s = .next u ∧ Emptied u ∧ u.csPatch = s.csPatch ∧ u.msg = s.msg ∧ u.moves = rest ∧
      u.seen = s.seen ∧ u.noValueRead = s.noValueRead ∧ step { s with moves := .reset :: rest } = .next u

/-- After R180. START is accepted in `IDLE` and `DONE` for `L <= LMAX`, for every `LMAX` that R7 allows: then `LEN`,
`FCAUSE`, `upc`, `PHASE` are set, and all else turns into no value; otherwise it has no move. The step relation's START is
this one with the `LMAX` it is given; that the host's step has `2^61 − 1` is the model's choice, the default of R7 (log
entry 8). -/
def Obligations.StartBeginsATransaction : Prop :=
  (∀ (lmax : Config.Limit) (msg : List Byte) (s : State), s.phase = .idle ∨ s.phase = .done →
    msg.length ≤ lmax.val →
    ∃ u, hostStart lmax msg msg.length s = .next u ∧ u.len.toNat = msg.length ∧ u.fcause = .none ∧ u.upc = 0 ∧
      u.phase = .run ∧ u.held = { Held.nothing with upc := true, len := true } ∧
      (∀ a, u.pb.read a = none) ∧ (∀ a, u.digest.read a = none) ∧ (∀ k, u.msg.read k = msg[k]?) ∧
      u.csPatch = s.csPatch ∧ u.moves = s.moves ∧ u.seen = s.seen ∧ u.noValueRead = s.noValueRead) ∧
  (∀ (lmax : Config.Limit) (len : Nat) (msg : List Byte) (s : State),
    s.phase = .run ∨ s.phase = .fatal ∨ lmax.val < len →
    hostStart lmax msg len s = .refused .startNotAccepted) ∧
  ∀ (s : State) (msg : List Byte) (len : Nat) (rest : List Move), s.moves = .start msg len :: rest →
    (∀ lmax : Config.Limit, stepWith lmax s = hostStart lmax msg len { s with moves := rest }) ∧
    ∃ lmax : Config.Limit, lmax.val = 2 ^ 61 - 1 ∧ step s = hostStart lmax msg len { s with moves := rest }

/-- R186. The host reads `PHASE` and `FCAUSE` at any time and `DIGEST` only in `DONE`; it gets their codes and the 32
bytes, again the same on a second read, and nothing of the core changes; outside `DONE` the digest read has no move. A
step whose move is one of the two reads is that read (log entry 6). -/
def Obligations.HostReadsStatusAndDigest : Prop :=
  (∀ s : State, hostReadStatus s = .next { s with seen := .status s.phase.code s.fcause.code :: s.seen }) ∧
  (∀ (s : State) (bytes : List Byte), s.phase = .done → bytes.length = 32 →
    (∀ k, k < 32 → s.digest.read k = bytes[k]?) →
    ∃ u, hostReadDigest s = .next u ∧ u.seen = .digest bytes :: s.seen ∧ Unchanged (fun p => p = .seen) s u ∧
      ∃ r, hostReadDigest u = .next r ∧ r.seen = .digest bytes :: .digest bytes :: s.seen) ∧
  (∀ s : State, s.phase ≠ .done → hostReadDigest s = .refused .digestNotReadable) ∧
  ∀ (s : State) (rest : List Move),
    (s.moves = .readStatus :: rest → step s = hostReadStatus { s with moves := rest }) ∧
    (s.moves = .readDigest :: rest → step s = hostReadDigest { s with moves := rest })

/-- R187 (b), R223. While `PHASE` is `RUN` no step writes the message, and the host's write of it has no move; outside
`RUN` the host writes it. A step whose move is the write is that write (log entry 6). -/
def Obligations.MessageIsFixedInRun : Prop :=
  (∀ s u : State, s.phase = .run → step s = .next u → u.msg = s.msg) ∧
  (∀ (s : State) (msg : List Byte), s.phase = .run → hostWriteMsg msg s = .refused .msgNotWritable) ∧
  (∀ (s : State) (msg : List Byte), s.phase ≠ .run →
    ∃ u, hostWriteMsg msg s = .next u ∧ (∀ k, u.msg.read k = msg[k]?) ∧
      Unchanged (fun p => ∃ a, p = .byte .msg a) s u) ∧
  ∀ (s : State) (msg : List Byte) (rest : List Move), s.moves = .writeMsg msg :: rest →
    step s = hostWriteMsg msg { s with moves := rest }

/-! ## Rules over every step -/

/-- R32. The codes of `PHASE`, and by what each phase is entered: IDLE by reset and ABORT, RUN by START from IDLE or
DONE, DONE by `FIN`, FATAL by a raise of `BCHK` or of the decode; so each is left only by what the table names. -/
def Obligations.PhaseChangesAsTabled : Prop :=
  (Phase.code .idle = 0#2 ∧ Phase.code .run = 1#2 ∧ Phase.code .done = 2#2 ∧ Phase.code .fatal = 3#2) ∧
  ∀ s u : State, step s = .next u → u.phase ≠ s.phase →
    (u.phase = .idle → ∃ rest, s.moves = .abort :: rest ∨ s.moves = .reset :: rest) ∧
    (u.phase = .run → (s.phase = .idle ∨ s.phase = .done) ∧ ∃ msg len rest, s.moves = .start msg len :: rest) ∧
    (u.phase = .done → s.phase = .run ∧ ∃ w, fetch s = some w ∧ decode w = some .fin) ∧
    (u.phase = .fatal → s.phase = .run ∧ ∃ w, fetch s = some w ∧
      ((decode w = none ∧ u.fcause = .reservedOperationWord) ∨
       (decode w = some .bchk ∧ u.fcause = .paddedLengthNotBlockMultiple ∧ s.plen.toNat % 64 ≠ 0)))

/-- R204. `FATAL` is left only by ABORT or reset, which discard everything; until then nothing of the core changes, no
second fault occurs, and START is not accepted. -/
def Obligations.FatalIsLeftByAbortOrResetOnly : Prop :=
  (∀ s u : State, s.phase = .fatal → step s = .next u →
    ((∃ rest, s.moves = .abort :: rest ∨ s.moves = .reset :: rest) ∧ Emptied u) ∨
    Unchanged (fun p => p = .moves ∨ p = .seen ∨ ∃ a, p = .byte .msg a) s u) ∧
  (∀ (s : State) (f : Fault), s.phase = .fatal → step s ≠ .fault f) ∧
  ∀ (s : State) (lmax : Config.Limit) (len : Nat) (msg : List Byte), s.phase = .fatal →
    hostStart lmax msg len s = .refused .startNotAccepted

/-- R28. Once `FIN` has made the digest visible nothing changes it until the next START or a reset or ABORT: in `DONE`,
every other step leaves `DONE` and every byte of `DIGEST`. -/
def Obligations.DigestIsFinalInDone : Prop :=
  ∀ s u : State, s.phase = .done → step s = .next u →
    (∃ msg len rest, s.moves = .start msg len :: rest ∨ s.moves = .abort :: rest ∨ s.moves = .reset :: rest) ∨
    (u.phase = .done ∧ ∀ a, u.digest.read a = s.digest.read a)

/-- R62, R230. No step writes the control store: a core whose control store is the table keeps the table, whatever the
outside does. -/
def Obligations.ControlStoreIsNeverWritten : Prop :=
  ∀ s u : State, step s = .next u → u.csPatch = s.csPatch ∧
    ∀ a : BitVec 8, fetch { u with upc := a } = fetch { s with upc := a }

/-- R20, R21, R22, R51. Every operation changes only the pieces its rule says it writes, `upc`, and the model's record
of reads of no value: so only `HINIT`, `HADD` and `FIN` touch `H`, only `PAD` and `FIN` touch `PB`, only `SER` touches
`DIGEST`, four bytes each, and none touches `MSG`. -/
def Obligations.OperationsWriteOnlyTheirPieces : Prop :=
  ∀ (i : Instr) (s u : State), exec i s = .next u → Unchanged (writes i s) s u

/-- R20, R21, R22, R51, R225, R226. What an operation writes depends only on the pieces its rule says it reads: two states that
agree on those agree, after it, on every piece it writes. So a round depends on `W` only through `W[i]`, an expansion
only through its four words, and `PAD` only on the message. -/
def Obligations.OperationsDependOnlyOnWhatTheyRead : Prop :=
  ∀ (i : Instr) (s₁ s₂ u₁ u₂ : State), (∀ p, reads i s₁ p → p.same s₁ s₂) →
    exec i s₁ = .next u₁ → exec i s₂ = .next u₂ → ∀ p, writes i s₁ p → p.same u₁ u₂

/-! ## Invariants -/

/-- Every step keeps the canonical form of the three byte spaces and of the control store's patches. -/
def Obligations.StepKeepsTheCanonicalForm : Prop := ∀ s u : State, Canonical s → step s = .next u → Canonical u

/-- The canonical form holds after reset. -/
def Obligations.ResetIsCanonical : Prop := Canonical State.reset

/-- R36, R201. From every state of a correct core, every step of the core and every move of the outside leads to a state
of a correct core: no operation reads a location that holds no value, and neither fatal cause is ever raised. -/
def Obligations.StepKeepsACorrectCore : Prop := ∀ s u : State, Good s → step s = .next u → Good u

/-- The state after reset is one of a correct core. -/
def Obligations.ResetIsACorrectCore : Prop := Good State.reset

/-- R188, R240. A correct core always takes its next step: no step of it stops with a fault, and when the outside does
nothing it is not refused either. -/
def Obligations.CorrectCoreAlwaysSteps : Prop :=
  ∀ s : State, Good s → (∀ f, step s ≠ .fault f) ∧ (s.moves = [] → ∃ u, step s = .next u)

/-! ## The parameter, and bytes that are not there -/

/-- After R7, R39. `LMAX` is a parameter of the step relation, and all that it decides is which START is accepted: a step of
a core with any `LMAX` is a step of the default core too, so what the statements above say of every next state holds for
every `LMAX`; a step whose move is not START is the same one; and a START is refused exactly where its core refuses
it. That `step` has the default is the model's choice (log entry 8). -/
def Obligations.LmaxLimitsOnlyStart : Prop :=
  ∀ (lmax : Config.Limit) (s : State),
    (∀ u, stepWith lmax s = .next u → step s = .next u) ∧
    ((∀ msg len rest, s.moves ≠ .start msg len :: rest) → stepWith lmax s = step s) ∧
    ∀ (msg : List Byte) (rest : List Move), s.moves = .start msg msg.length :: rest →
      s.phase = .idle ∨ s.phase = .done →
      (msg.length ≤ lmax.val → ∃ u, stepWith lmax s = .next u) ∧
      (lmax.val < msg.length → stepWith lmax s = .refused .startNotAccepted)

/-- The model's choice (log entry 4), after R36 and R55: where a byte that `PAD` or `WLD` reads holds no value or lies
outside its space, which no run of a correct core meets, the operation stops with a fault and reads nothing. -/
def Obligations.MissingByteStopsTheOperation : Prop :=
  (∀ (s : State) (k : Nat), k < s.len.toNat → s.msg.read k = none →
    exec .pad s = .fault (.noByte .msg 0 s.len.toNat)) ∧
  ∀ (s : State) (j : BitVec 6) (k : Nat), j.toNat ≤ 15 → k < 4 →
    s.pb.read (64 * s.t.toNat + 4 * j.toNat + k) = none →
    exec (.wld j) s = .fault (.noByte .pb (64 * s.t.toNat + 4 * j.toNat) 4)
end

