-- ==== Sys2Proof/Laws/State.lean ====
section
/-! SUPPORT. One lemma per field per update of the state, so that no later proof unfolds a record update. -/

namespace Sys2Proof.Machine

/-! `setUpc` writes `upc` and that it holds a value. -/

@[simp] theorem State.setUpc_phase (s : State) (a : BitVec 8) : (s.setUpc a).phase = s.phase := rfl
@[simp] theorem State.setUpc_fcause (s : State) (a : BitVec 8) : (s.setUpc a).fcause = s.fcause := rfl
@[simp] theorem State.setUpc_upc (s : State) (a : BitVec 8) : (s.setUpc a).upc = a := rfl
@[simp] theorem State.setUpc_len (s : State) (a : BitVec 8) : (s.setUpc a).len = s.len := rfl
@[simp] theorem State.setUpc_plen (s : State) (a : BitVec 8) : (s.setUpc a).plen = s.plen := rfl
@[simp] theorem State.setUpc_n (s : State) (a : BitVec 8) : (s.setUpc a).n = s.n := rfl
@[simp] theorem State.setUpc_t (s : State) (a : BitVec 8) : (s.setUpc a).t = s.t := rfl
@[simp] theorem State.setUpc_h (s : State) (a : BitVec 8) : (s.setUpc a).h = s.h := rfl
@[simp] theorem State.setUpc_v (s : State) (a : BitVec 8) : (s.setUpc a).v = s.v := rfl
@[simp] theorem State.setUpc_w (s : State) (a : BitVec 8) : (s.setUpc a).w = s.w := rfl
@[simp] theorem State.setUpc_msg (s : State) (a : BitVec 8) : (s.setUpc a).msg = s.msg := rfl
@[simp] theorem State.setUpc_pb (s : State) (a : BitVec 8) : (s.setUpc a).pb = s.pb := rfl
@[simp] theorem State.setUpc_digest (s : State) (a : BitVec 8) : (s.setUpc a).digest = s.digest := rfl
@[simp] theorem State.setUpc_held (s : State) (a : BitVec 8) : (s.setUpc a).held = { s.held with upc := true } := rfl
@[simp] theorem State.setUpc_csPatch (s : State) (a : BitVec 8) : (s.setUpc a).csPatch = s.csPatch := rfl
@[simp] theorem State.setUpc_moves (s : State) (a : BitVec 8) : (s.setUpc a).moves = s.moves := rfl
@[simp] theorem State.setUpc_seen (s : State) (a : BitVec 8) : (s.setUpc a).seen = s.seen := rfl
@[simp] theorem State.setUpc_fresh (s : State) (a : BitVec 8) : (s.setUpc a).fresh = s.fresh := rfl
@[simp] theorem State.setUpc_noValueRead (s : State) (a : BitVec 8) : (s.setUpc a).noValueRead = s.noValueRead := rfl

/-! `advance` moves `upc` on, which then holds a value, and leaves every other field. -/

@[simp] theorem State.advance_phase (s : State) : (s.advance).phase = s.phase := rfl
@[simp] theorem State.advance_fcause (s : State) : (s.advance).fcause = s.fcause := rfl
@[simp] theorem State.advance_upc (s : State) : (s.advance).upc = upcAfter s.upc := rfl
@[simp] theorem State.advance_len (s : State) : (s.advance).len = s.len := rfl
@[simp] theorem State.advance_plen (s : State) : (s.advance).plen = s.plen := rfl
@[simp] theorem State.advance_n (s : State) : (s.advance).n = s.n := rfl
@[simp] theorem State.advance_t (s : State) : (s.advance).t = s.t := rfl
@[simp] theorem State.advance_h (s : State) : (s.advance).h = s.h := rfl
@[simp] theorem State.advance_v (s : State) : (s.advance).v = s.v := rfl
@[simp] theorem State.advance_w (s : State) : (s.advance).w = s.w := rfl
@[simp] theorem State.advance_msg (s : State) : (s.advance).msg = s.msg := rfl
@[simp] theorem State.advance_pb (s : State) : (s.advance).pb = s.pb := rfl
@[simp] theorem State.advance_digest (s : State) : (s.advance).digest = s.digest := rfl
@[simp] theorem State.advance_held (s : State) : (s.advance).held = { s.held with upc := true } := rfl
@[simp] theorem State.advance_csPatch (s : State) : (s.advance).csPatch = s.csPatch := rfl
@[simp] theorem State.advance_moves (s : State) : (s.advance).moves = s.moves := rfl
@[simp] theorem State.advance_seen (s : State) : (s.advance).seen = s.seen := rfl
@[simp] theorem State.advance_fresh (s : State) : (s.advance).fresh = s.fresh := rfl
@[simp] theorem State.advance_noValueRead (s : State) : (s.advance).noValueRead = s.noValueRead := rfl

/-- Below 255 the successor of `upc` is exact (R183). -/
theorem upcAfter_toNat {a : BitVec 8} (h : a.toNat + 1 < 2 ^ 8) : (upcAfter a).toNat = a.toNat + 1 := by
  rw [upcAfter, if_pos h]; bv_omega

theorem State.advance_upc_toNat (s : State) (h : s.upc.toNat + 1 < 2 ^ 8) :
    s.advance.upc.toNat = s.upc.toNat + 1 := upcAfter_toNat h

/-! `raiseFatal` writes `FCAUSE` and `PHASE` and leaves every other field (R203). -/

@[simp] theorem State.raiseFatal_phase (s : State) (c : FCause) : (s.raiseFatal c).phase = .fatal := rfl
@[simp] theorem State.raiseFatal_fcause (s : State) (c : FCause) : (s.raiseFatal c).fcause = c := rfl
@[simp] theorem State.raiseFatal_upc (s : State) (c : FCause) : (s.raiseFatal c).upc = s.upc := rfl
@[simp] theorem State.raiseFatal_len (s : State) (c : FCause) : (s.raiseFatal c).len = s.len := rfl
@[simp] theorem State.raiseFatal_plen (s : State) (c : FCause) : (s.raiseFatal c).plen = s.plen := rfl
@[simp] theorem State.raiseFatal_n (s : State) (c : FCause) : (s.raiseFatal c).n = s.n := rfl
@[simp] theorem State.raiseFatal_t (s : State) (c : FCause) : (s.raiseFatal c).t = s.t := rfl
@[simp] theorem State.raiseFatal_h (s : State) (c : FCause) : (s.raiseFatal c).h = s.h := rfl
@[simp] theorem State.raiseFatal_v (s : State) (c : FCause) : (s.raiseFatal c).v = s.v := rfl
@[simp] theorem State.raiseFatal_w (s : State) (c : FCause) : (s.raiseFatal c).w = s.w := rfl
@[simp] theorem State.raiseFatal_msg (s : State) (c : FCause) : (s.raiseFatal c).msg = s.msg := rfl
@[simp] theorem State.raiseFatal_pb (s : State) (c : FCause) : (s.raiseFatal c).pb = s.pb := rfl
@[simp] theorem State.raiseFatal_digest (s : State) (c : FCause) : (s.raiseFatal c).digest = s.digest := rfl
@[simp] theorem State.raiseFatal_held (s : State) (c : FCause) : (s.raiseFatal c).held = s.held := rfl
@[simp] theorem State.raiseFatal_csPatch (s : State) (c : FCause) : (s.raiseFatal c).csPatch = s.csPatch := rfl
@[simp] theorem State.raiseFatal_moves (s : State) (c : FCause) : (s.raiseFatal c).moves = s.moves := rfl
@[simp] theorem State.raiseFatal_seen (s : State) (c : FCause) : (s.raiseFatal c).seen = s.seen := rfl
@[simp] theorem State.raiseFatal_fresh (s : State) (c : FCause) : (s.raiseFatal c).fresh = s.fresh := rfl
@[simp] theorem State.raiseFatal_noValueRead (s : State) (c : FCause) : (s.raiseFatal c).noValueRead = s.noValueRead := rfl

/-! `noteRead` keeps the record of reads of no value and leaves every other field. -/

@[simp] theorem State.noteRead_phase (s : State) (ok : Bool) : (s.noteRead ok).phase = s.phase := rfl
@[simp] theorem State.noteRead_fcause (s : State) (ok : Bool) : (s.noteRead ok).fcause = s.fcause := rfl
@[simp] theorem State.noteRead_upc (s : State) (ok : Bool) : (s.noteRead ok).upc = s.upc := rfl
@[simp] theorem State.noteRead_len (s : State) (ok : Bool) : (s.noteRead ok).len = s.len := rfl
@[simp] theorem State.noteRead_plen (s : State) (ok : Bool) : (s.noteRead ok).plen = s.plen := rfl
@[simp] theorem State.noteRead_n (s : State) (ok : Bool) : (s.noteRead ok).n = s.n := rfl
@[simp] theorem State.noteRead_t (s : State) (ok : Bool) : (s.noteRead ok).t = s.t := rfl
@[simp] theorem State.noteRead_h (s : State) (ok : Bool) : (s.noteRead ok).h = s.h := rfl
@[simp] theorem State.noteRead_v (s : State) (ok : Bool) : (s.noteRead ok).v = s.v := rfl
@[simp] theorem State.noteRead_w (s : State) (ok : Bool) : (s.noteRead ok).w = s.w := rfl
@[simp] theorem State.noteRead_msg (s : State) (ok : Bool) : (s.noteRead ok).msg = s.msg := rfl
@[simp] theorem State.noteRead_pb (s : State) (ok : Bool) : (s.noteRead ok).pb = s.pb := rfl
@[simp] theorem State.noteRead_digest (s : State) (ok : Bool) : (s.noteRead ok).digest = s.digest := rfl
@[simp] theorem State.noteRead_held (s : State) (ok : Bool) : (s.noteRead ok).held = s.held := rfl
@[simp] theorem State.noteRead_csPatch (s : State) (ok : Bool) : (s.noteRead ok).csPatch = s.csPatch := rfl
@[simp] theorem State.noteRead_moves (s : State) (ok : Bool) : (s.noteRead ok).moves = s.moves := rfl
@[simp] theorem State.noteRead_seen (s : State) (ok : Bool) : (s.noteRead ok).seen = s.seen := rfl
@[simp] theorem State.noteRead_fresh (s : State) (ok : Bool) : (s.noteRead ok).fresh = s.fresh := rfl
@[simp] theorem State.noteRead_noValueRead (s : State) (ok : Bool) : (s.noteRead ok).noValueRead = (s.noValueRead || !ok) := rfl

/-! `setH` writes `H` and that it holds a value. -/

@[simp] theorem State.setH_phase (s : State) (x : Vector Word 8) : (s.setH x).phase = s.phase := rfl
@[simp] theorem State.setH_fcause (s : State) (x : Vector Word 8) : (s.setH x).fcause = s.fcause := rfl
@[simp] theorem State.setH_upc (s : State) (x : Vector Word 8) : (s.setH x).upc = s.upc := rfl
@[simp] theorem State.setH_len (s : State) (x : Vector Word 8) : (s.setH x).len = s.len := rfl
@[simp] theorem State.setH_plen (s : State) (x : Vector Word 8) : (s.setH x).plen = s.plen := rfl
@[simp] theorem State.setH_n (s : State) (x : Vector Word 8) : (s.setH x).n = s.n := rfl
@[simp] theorem State.setH_t (s : State) (x : Vector Word 8) : (s.setH x).t = s.t := rfl
@[simp] theorem State.setH_h (s : State) (x : Vector Word 8) : (s.setH x).h = x := rfl
@[simp] theorem State.setH_v (s : State) (x : Vector Word 8) : (s.setH x).v = s.v := rfl
@[simp] theorem State.setH_w (s : State) (x : Vector Word 8) : (s.setH x).w = s.w := rfl
@[simp] theorem State.setH_msg (s : State) (x : Vector Word 8) : (s.setH x).msg = s.msg := rfl
@[simp] theorem State.setH_pb (s : State) (x : Vector Word 8) : (s.setH x).pb = s.pb := rfl
@[simp] theorem State.setH_digest (s : State) (x : Vector Word 8) : (s.setH x).digest = s.digest := rfl
@[simp] theorem State.setH_held (s : State) (x : Vector Word 8) : (s.setH x).held = { s.held with h := true } := rfl
@[simp] theorem State.setH_csPatch (s : State) (x : Vector Word 8) : (s.setH x).csPatch = s.csPatch := rfl
@[simp] theorem State.setH_moves (s : State) (x : Vector Word 8) : (s.setH x).moves = s.moves := rfl
@[simp] theorem State.setH_seen (s : State) (x : Vector Word 8) : (s.setH x).seen = s.seen := rfl
@[simp] theorem State.setH_fresh (s : State) (x : Vector Word 8) : (s.setH x).fresh = s.fresh := rfl
@[simp] theorem State.setH_noValueRead (s : State) (x : Vector Word 8) : (s.setH x).noValueRead = s.noValueRead := rfl

/-! `setV` writes `V` and that it holds a value. -/

@[simp] theorem State.setV_phase (s : State) (x : Vector Word 8) : (s.setV x).phase = s.phase := rfl
@[simp] theorem State.setV_fcause (s : State) (x : Vector Word 8) : (s.setV x).fcause = s.fcause := rfl
@[simp] theorem State.setV_upc (s : State) (x : Vector Word 8) : (s.setV x).upc = s.upc := rfl
@[simp] theorem State.setV_len (s : State) (x : Vector Word 8) : (s.setV x).len = s.len := rfl
@[simp] theorem State.setV_plen (s : State) (x : Vector Word 8) : (s.setV x).plen = s.plen := rfl
@[simp] theorem State.setV_n (s : State) (x : Vector Word 8) : (s.setV x).n = s.n := rfl
@[simp] theorem State.setV_t (s : State) (x : Vector Word 8) : (s.setV x).t = s.t := rfl
@[simp] theorem State.setV_h (s : State) (x : Vector Word 8) : (s.setV x).h = s.h := rfl
@[simp] theorem State.setV_v (s : State) (x : Vector Word 8) : (s.setV x).v = x := rfl
@[simp] theorem State.setV_w (s : State) (x : Vector Word 8) : (s.setV x).w = s.w := rfl
@[simp] theorem State.setV_msg (s : State) (x : Vector Word 8) : (s.setV x).msg = s.msg := rfl
@[simp] theorem State.setV_pb (s : State) (x : Vector Word 8) : (s.setV x).pb = s.pb := rfl
@[simp] theorem State.setV_digest (s : State) (x : Vector Word 8) : (s.setV x).digest = s.digest := rfl
@[simp] theorem State.setV_held (s : State) (x : Vector Word 8) : (s.setV x).held = { s.held with v := true } := rfl
@[simp] theorem State.setV_csPatch (s : State) (x : Vector Word 8) : (s.setV x).csPatch = s.csPatch := rfl
@[simp] theorem State.setV_moves (s : State) (x : Vector Word 8) : (s.setV x).moves = s.moves := rfl
@[simp] theorem State.setV_seen (s : State) (x : Vector Word 8) : (s.setV x).seen = s.seen := rfl
@[simp] theorem State.setV_fresh (s : State) (x : Vector Word 8) : (s.setV x).fresh = s.fresh := rfl
@[simp] theorem State.setV_noValueRead (s : State) (x : Vector Word 8) : (s.setV x).noValueRead = s.noValueRead := rfl

/-! `setW` writes one word of `W` and that it holds a value. -/

@[simp] theorem State.setW_phase (s : State) (i : BitVec 6) (x : Word) : (s.setW i x).phase = s.phase := rfl
@[simp] theorem State.setW_fcause (s : State) (i : BitVec 6) (x : Word) : (s.setW i x).fcause = s.fcause := rfl
@[simp] theorem State.setW_upc (s : State) (i : BitVec 6) (x : Word) : (s.setW i x).upc = s.upc := rfl
@[simp] theorem State.setW_len (s : State) (i : BitVec 6) (x : Word) : (s.setW i x).len = s.len := rfl
@[simp] theorem State.setW_plen (s : State) (i : BitVec 6) (x : Word) : (s.setW i x).plen = s.plen := rfl
@[simp] theorem State.setW_n (s : State) (i : BitVec 6) (x : Word) : (s.setW i x).n = s.n := rfl
@[simp] theorem State.setW_t (s : State) (i : BitVec 6) (x : Word) : (s.setW i x).t = s.t := rfl
@[simp] theorem State.setW_h (s : State) (i : BitVec 6) (x : Word) : (s.setW i x).h = s.h := rfl
@[simp] theorem State.setW_v (s : State) (i : BitVec 6) (x : Word) : (s.setW i x).v = s.v := rfl
@[simp] theorem State.setW_w (s : State) (i : BitVec 6) (x : Word) : (s.setW i x).w = s.w.set i.toNat x i.isLt := rfl
@[simp] theorem State.setW_msg (s : State) (i : BitVec 6) (x : Word) : (s.setW i x).msg = s.msg := rfl
@[simp] theorem State.setW_pb (s : State) (i : BitVec 6) (x : Word) : (s.setW i x).pb = s.pb := rfl
@[simp] theorem State.setW_digest (s : State) (i : BitVec 6) (x : Word) : (s.setW i x).digest = s.digest := rfl
@[simp] theorem State.setW_held (s : State) (i : BitVec 6) (x : Word) : (s.setW i x).held = { s.held with w := s.held.w.set i.toNat true i.isLt } := rfl
@[simp] theorem State.setW_csPatch (s : State) (i : BitVec 6) (x : Word) : (s.setW i x).csPatch = s.csPatch := rfl
@[simp] theorem State.setW_moves (s : State) (i : BitVec 6) (x : Word) : (s.setW i x).moves = s.moves := rfl
@[simp] theorem State.setW_seen (s : State) (i : BitVec 6) (x : Word) : (s.setW i x).seen = s.seen := rfl
@[simp] theorem State.setW_fresh (s : State) (i : BitVec 6) (x : Word) : (s.setW i x).fresh = s.fresh := rfl
@[simp] theorem State.setW_noValueRead (s : State) (i : BitVec 6) (x : Word) : (s.setW i x).noValueRead = s.noValueRead := rfl

/-! `discardLen` takes `LEN` away. -/

@[simp] theorem State.discardLen_phase (s : State) : (s.discardLen).phase = s.phase := rfl
@[simp] theorem State.discardLen_fcause (s : State) : (s.discardLen).fcause = s.fcause := rfl
@[simp] theorem State.discardLen_upc (s : State) : (s.discardLen).upc = s.upc := rfl
@[simp] theorem State.discardLen_len (s : State) : (s.discardLen).len = Config.noValue s.fresh .len 61 := rfl
@[simp] theorem State.discardLen_plen (s : State) : (s.discardLen).plen = s.plen := rfl
@[simp] theorem State.discardLen_n (s : State) : (s.discardLen).n = s.n := rfl
@[simp] theorem State.discardLen_t (s : State) : (s.discardLen).t = s.t := rfl
@[simp] theorem State.discardLen_h (s : State) : (s.discardLen).h = s.h := rfl
@[simp] theorem State.discardLen_v (s : State) : (s.discardLen).v = s.v := rfl
@[simp] theorem State.discardLen_w (s : State) : (s.discardLen).w = s.w := rfl
@[simp] theorem State.discardLen_msg (s : State) : (s.discardLen).msg = s.msg := rfl
@[simp] theorem State.discardLen_pb (s : State) : (s.discardLen).pb = s.pb := rfl
@[simp] theorem State.discardLen_digest (s : State) : (s.discardLen).digest = s.digest := rfl
@[simp] theorem State.discardLen_held (s : State) : (s.discardLen).held = { s.held with len := false } := rfl
@[simp] theorem State.discardLen_csPatch (s : State) : (s.discardLen).csPatch = s.csPatch := rfl
@[simp] theorem State.discardLen_moves (s : State) : (s.discardLen).moves = s.moves := rfl
@[simp] theorem State.discardLen_seen (s : State) : (s.discardLen).seen = s.seen := rfl
@[simp] theorem State.discardLen_fresh (s : State) : (s.discardLen).fresh = s.fresh := rfl
@[simp] theorem State.discardLen_noValueRead (s : State) : (s.discardLen).noValueRead = s.noValueRead := rfl

/-! `coreReset` leaves the core as after reset, and keeps what is not its mutable state (R220). -/

@[simp] theorem State.coreReset_phase (s : State) : (s.coreReset).phase = .idle := rfl
@[simp] theorem State.coreReset_fcause (s : State) : (s.coreReset).fcause = .none := rfl
@[simp] theorem State.coreReset_upc (s : State) : (s.coreReset).upc = 0 := rfl
@[simp] theorem State.coreReset_len (s : State) : (s.coreReset).len = 0 := rfl
@[simp] theorem State.coreReset_plen (s : State) : (s.coreReset).plen = 0 := rfl
@[simp] theorem State.coreReset_n (s : State) : (s.coreReset).n = 0 := rfl
@[simp] theorem State.coreReset_t (s : State) : (s.coreReset).t = 0 := rfl
@[simp] theorem State.coreReset_h (s : State) : (s.coreReset).h = Vector.replicate 8 0 := rfl
@[simp] theorem State.coreReset_v (s : State) : (s.coreReset).v = Vector.replicate 8 0 := rfl
@[simp] theorem State.coreReset_w (s : State) : (s.coreReset).w = Vector.replicate 64 0 := rfl
@[simp] theorem State.coreReset_msg (s : State) : (s.coreReset).msg = s.msg := rfl
@[simp] theorem State.coreReset_pb (s : State) : (s.coreReset).pb = [] := rfl
@[simp] theorem State.coreReset_digest (s : State) : (s.coreReset).digest = [] := rfl
@[simp] theorem State.coreReset_held (s : State) : (s.coreReset).held = .nothing := rfl
@[simp] theorem State.coreReset_csPatch (s : State) : (s.coreReset).csPatch = s.csPatch := rfl
@[simp] theorem State.coreReset_moves (s : State) : (s.coreReset).moves = s.moves := rfl
@[simp] theorem State.coreReset_seen (s : State) : (s.coreReset).seen = s.seen := rfl
@[simp] theorem State.coreReset_fresh (s : State) : (s.coreReset).fresh = s.fresh := rfl
@[simp] theorem State.coreReset_noValueRead (s : State) : (s.coreReset).noValueRead = s.noValueRead := rfl

/-! `discardWork` takes the working state away (R180, R184). -/

@[simp] theorem State.discardWork_phase (s : State) : (s.discardWork).phase = s.phase := rfl
@[simp] theorem State.discardWork_fcause (s : State) : (s.discardWork).fcause = s.fcause := rfl
@[simp] theorem State.discardWork_upc (s : State) : (s.discardWork).upc = s.upc := rfl
@[simp] theorem State.discardWork_len (s : State) : (s.discardWork).len = s.len := rfl
@[simp] theorem State.discardWork_plen (s : State) : (s.discardWork).plen = Config.noValue s.fresh .plen 62 := rfl
@[simp] theorem State.discardWork_n (s : State) : (s.discardWork).n = Config.noValue s.fresh .n 56 := rfl
@[simp] theorem State.discardWork_t (s : State) : (s.discardWork).t = Config.noValue s.fresh .t 56 := rfl
@[simp] theorem State.discardWork_msg (s : State) : (s.discardWork).msg = s.msg := rfl
@[simp] theorem State.discardWork_pb (s : State) : (s.discardWork).pb = [] := rfl
@[simp] theorem State.discardWork_digest (s : State) : (s.discardWork).digest = s.digest := rfl
@[simp] theorem State.discardWork_held (s : State) : (s.discardWork).held = { s.held with plen := false, n := false, t := false, h := false, v := false, w := Vector.replicate 64 false } := rfl
@[simp] theorem State.discardWork_csPatch (s : State) : (s.discardWork).csPatch = s.csPatch := rfl
@[simp] theorem State.discardWork_moves (s : State) : (s.discardWork).moves = s.moves := rfl
@[simp] theorem State.discardWork_seen (s : State) : (s.discardWork).seen = s.seen := rfl
@[simp] theorem State.discardWork_fresh (s : State) : (s.discardWork).fresh = s.fresh + 1 := rfl
@[simp] theorem State.discardWork_noValueRead (s : State) : (s.discardWork).noValueRead = s.noValueRead := rfl

@[simp] theorem State.discardWork_h (s : State) :
    s.discardWork.h = Vector.ofFn fun j => Config.noValue s.fresh (.h j.val) 32 := rfl
@[simp] theorem State.discardWork_v (s : State) :
    s.discardWork.v = Vector.ofFn fun j => Config.noValue s.fresh (.v j.val) 32 := rfl
@[simp] theorem State.discardWork_w (s : State) :
    s.discardWork.w = Vector.ofFn fun i => Config.noValue s.fresh (.w i.val) 32 := rfl

/-! `setT` writes `t`; what fits 56 bits is written as it stands, and no other field but `held` changes. -/

@[simp] theorem State.setT_phase (s : State) (tn : Nat) : (s.setT tn).phase = s.phase := by
  unfold State.setT; split <;> rfl
@[simp] theorem State.setT_fcause (s : State) (tn : Nat) : (s.setT tn).fcause = s.fcause := by
  unfold State.setT; split <;> rfl
@[simp] theorem State.setT_upc (s : State) (tn : Nat) : (s.setT tn).upc = s.upc := by
  unfold State.setT; split <;> rfl
@[simp] theorem State.setT_len (s : State) (tn : Nat) : (s.setT tn).len = s.len := by
  unfold State.setT; split <;> rfl
@[simp] theorem State.setT_plen (s : State) (tn : Nat) : (s.setT tn).plen = s.plen := by
  unfold State.setT; split <;> rfl
@[simp] theorem State.setT_n (s : State) (tn : Nat) : (s.setT tn).n = s.n := by
  unfold State.setT; split <;> rfl
@[simp] theorem State.setT_h (s : State) (tn : Nat) : (s.setT tn).h = s.h := by
  unfold State.setT; split <;> rfl
@[simp] theorem State.setT_v (s : State) (tn : Nat) : (s.setT tn).v = s.v := by
  unfold State.setT; split <;> rfl
@[simp] theorem State.setT_w (s : State) (tn : Nat) : (s.setT tn).w = s.w := by
  unfold State.setT; split <;> rfl
@[simp] theorem State.setT_msg (s : State) (tn : Nat) : (s.setT tn).msg = s.msg := by
  unfold State.setT; split <;> rfl
@[simp] theorem State.setT_pb (s : State) (tn : Nat) : (s.setT tn).pb = s.pb := by
  unfold State.setT; split <;> rfl
@[simp] theorem State.setT_digest (s : State) (tn : Nat) : (s.setT tn).digest = s.digest := by
  unfold State.setT; split <;> rfl
@[simp] theorem State.setT_csPatch (s : State) (tn : Nat) : (s.setT tn).csPatch = s.csPatch := by
  unfold State.setT; split <;> rfl
@[simp] theorem State.setT_moves (s : State) (tn : Nat) : (s.setT tn).moves = s.moves := by
  unfold State.setT; split <;> rfl
@[simp] theorem State.setT_seen (s : State) (tn : Nat) : (s.setT tn).seen = s.seen := by
  unfold State.setT; split <;> rfl
@[simp] theorem State.setT_noValueRead (s : State) (tn : Nat) : (s.setT tn).noValueRead = s.noValueRead := by
  unfold State.setT; split <;> rfl

@[simp] theorem State.setT_held (s : State) (tn : Nat) : (s.setT tn).held = { s.held with t := true } := by
  unfold State.setT; split <;> rfl

theorem State.setT_of_lt (s : State) (tn : Nat) (h : tn < 2 ^ 56) :
    s.setT tn = { s with t := BitVec.ofNat 56 tn, held := { s.held with t := true } } := if_pos h

theorem State.setT_of_not_lt (s : State) (tn : Nat) (h : ¬ tn < 2 ^ 56) :
    s.setT tn =
      { s with t := Config.noValue s.fresh .t 56, fresh := s.fresh + 1, held := { s.held with t := true } } := if_neg h

theorem State.setT_t_toNat (s : State) {tn : Nat} (h : tn < 2 ^ 56) : (s.setT tn).t.toNat = tn := by
  rw [State.setT_of_lt s tn h, BitVec.toNat_ofNat, Nat.mod_eq_of_lt h]

theorem State.setT_fresh_of_lt (s : State) {tn : Nat} (h : tn < 2 ^ 56) : (s.setT tn).fresh = s.fresh := by
  rw [State.setT_of_lt s tn h]

/-- Noting the read of a register that holds a value changes nothing. -/
@[simp] theorem State.noteRead_true (s : State) : s.noteRead true = s := by
  cases s; simp [State.noteRead]

/-! `W[i]` after a write of `W`. -/

@[simp] theorem State.getW_setW_self (s : State) (i : BitVec 6) (x : Word) : (s.setW i x).getW i = x := by
  simp [State.getW]

theorem State.getW_setW_ne (s : State) {i k : BitVec 6} (x : Word) (h : i ≠ k) :
    (s.setW i x).getW k = s.getW k := by
  have : i.toNat ≠ k.toNat := fun e => h (BitVec.eq_of_toNat_eq e)
  simp [State.getW, this]

@[simp] theorem State.getW_noteRead (s : State) (ok : Bool) (i : BitVec 6) : (s.noteRead ok).getW i = s.getW i := rfl

@[simp] theorem State.getW_advance (s : State) (i : BitVec 6) : s.advance.getW i = s.getW i := rfl

@[simp] theorem State.heldW_noteRead (s : State) (ok : Bool) (i : BitVec 6) :
    (s.noteRead ok).heldW i = s.heldW i := rfl

end Sys2Proof.Machine
end

