-- ==== Sys2Proof/Laws/ControlStore.lean ====
section
/-! SUPPORT. The control store read as operations, by ranges of addresses, and `upc` as a number. -/

namespace Sys2Proof.Machine

/-- The operation at an address of the control store, row by row of its table (R79). -/
def opAt (a : Nat) : Option Instr :=
  if a = 0 then some .pad
  else if a = 1 then some .bchk
  else if a = 2 then some .hinit
  else if a ≤ 18 then some (.wld (BitVec.ofNat 6 (a - 3)))
  else if a ≤ 66 then some (.wexp (BitVec.ofNat 6 (a - 3)))
  else if a = 67 then some .vinit
  else if a ≤ 131 then some (.rnd (BitVec.ofNat 6 (a - 68)))
  else if a = 132 then some .hadd
  else if a = 133 then some .bnext
  else if a ≤ 141 then some (.ser (BitVec.ofNat 6 (a - 134)))
  else if a = 142 then some .fin
  else none

/-- Every word of the control store decodes to the operation of its row. -/
theorem decode_CS (a : Nat) (ha : a ≤ 142) : (CS a).bind decode = opAt a := by
  have h : (List.range 143).all (fun a => (CS a).bind decode == opAt a) = true := by decide +kernel
  simpa using List.all_eq_true.1 h a (List.mem_range.2 (by omega))

/-- A decoded operation is well-formed. -/
theorem decode_wellFormed {w : OpWord} {i : Instr} (h : decode w = some i) : i.wellFormed = true := by
  unfold decode at h
  split at h
  · split at h
    · rename_i hc
      cases h
      simp only [Bool.and_eq_true] at hc
      exact hc.1
    · cases h
  · cases h

/-- With no patch the fetch reads the table. -/
theorem fetch_of_intact (s : State) (h : s.csPatch = []) : fetch s = CS s.upc.toNat := by
  simp [fetch, h, Entries.lookup]

/-- Inside the control store `upc` counts on without wrapping. -/
theorem toNat_upc_succ (s : State) (h : s.upc.toNat ≤ 142) : (s.upc + 1).toNat = s.upc.toNat + 1 := by
  simp [BitVec.toNat_add]; omega

end Sys2Proof.Machine
end

