-- ==== Sys2Proof/Laws/Memory.lean ====
section
/-! SUPPORT. The laws of finite maps and byte spaces: read after write, the canonical form, spaces written whole. -/

namespace Sys2Proof.Machine

section
variable {α : Type} (m : Entries α) (a k lo : Nat) (x : α)

/-- An entry reads as what was last set at its key, and the other keys read as before. -/
theorem Entries.lookup_insert :
    Entries.lookup (Entries.insert m a x) k = if k = a then some x else Entries.lookup m k := by
  induction m with
  | nil => simp [Entries.insert, Entries.lookup]
  | cons e rest ih =>
    obtain ⟨b, y⟩ := e
    simp only [Entries.insert]
    split
    · simp [Entries.lookup]
    · split
      · subst_vars; simp only [Entries.lookup]; split <;> rfl
      · simp only [Entries.lookup, ih]
        by_cases h : k = b
        · have : k ≠ a := by omega
          simp [h, show b ≠ a by omega]
        · simp [h]

/-- Below the lowest key nothing is listed. -/
theorem Entries.lookup_of_lt (h : Entries.risingFrom lo m = true) (hk : k < lo) : Entries.lookup m k = none := by
  induction m generalizing lo with
  | nil => rfl
  | cons e rest ih =>
    obtain ⟨b, y⟩ := e
    simp only [Entries.risingFrom, Bool.and_eq_true, decide_eq_true_eq] at h
    simp only [Entries.lookup]
    rw [if_neg (by omega)]
    exact ih (b + 1) h.2 (by omega)

/-- The keys stay strictly rising when an entry is set. -/
theorem Entries.risingFrom_insert (h : Entries.risingFrom lo m = true) (ha : lo ≤ a) :
    Entries.risingFrom lo (Entries.insert m a x) = true := by
  induction m generalizing lo with
  | nil => simp [Entries.insert, Entries.risingFrom, ha]
  | cons e rest ih =>
    obtain ⟨b, y⟩ := e
    simp only [Entries.risingFrom, Bool.and_eq_true, decide_eq_true_eq] at h
    simp only [Entries.insert]
    split
    · simp [Entries.risingFrom, ha, h.2]; omega
    · split
      · subst_vars; simp [Entries.risingFrom, h.1, h.2]
      · simp only [Entries.risingFrom, Bool.and_eq_true, decide_eq_true_eq]
        exact ⟨h.1, ih (b + 1) h.2 (by omega)⟩

/-- Rising keys are rising from any lower bound. -/
theorem Entries.risingFrom_mono {lo lo' : Nat} (h : Entries.risingFrom lo m = true) (hl : lo' ≤ lo) :
    Entries.risingFrom lo' m = true := by
  cases m with
  | nil => rfl
  | cons e rest =>
    simp only [Entries.risingFrom, Bool.and_eq_true, decide_eq_true_eq] at h ⊢
    exact ⟨by omega, h.2⟩

/-- The keys stay strictly rising when an entry is dropped. -/
theorem Entries.risingFrom_erase (h : Entries.risingFrom lo m = true) :
    Entries.risingFrom lo (Entries.erase m a) = true := by
  induction m generalizing lo with
  | nil => rfl
  | cons e rest ih =>
    obtain ⟨b, y⟩ := e
    simp only [Entries.risingFrom, Bool.and_eq_true, decide_eq_true_eq] at h
    simp only [Entries.erase]
    split
    · exact Entries.risingFrom_mono rest h.2 (by omega)
    · simp only [Entries.risingFrom, Bool.and_eq_true, decide_eq_true_eq]
      exact ⟨h.1, ih (b + 1) h.2⟩

/-- In canonical form a dropped key reads as nothing, and the other keys read as before. -/
theorem Entries.lookup_erase (h : Entries.risingFrom lo m = true) :
    Entries.lookup (Entries.erase m a) k = if k = a then none else Entries.lookup m k := by
  induction m generalizing lo with
  | nil => simp [Entries.erase, Entries.lookup]
  | cons e rest ih =>
    obtain ⟨b, y⟩ := e
    simp only [Entries.risingFrom, Bool.and_eq_true, decide_eq_true_eq] at h
    simp only [Entries.erase]
    split
    · rename_i hab
      subst hab
      by_cases hk : k = a
      · subst hk; simp [Entries.lookup_of_lt rest k (k + 1) h.2 (by omega)]
      · simp [Entries.lookup, hk]
    · simp only [Entries.lookup, ih (b + 1) h.2]
      by_cases hk : k = b
      · simp [hk, show b ≠ a by omega]
      · simp [hk]

end

/-- A byte reads as what was last stored there, and the other bytes read as before. -/
theorem Memory.read_write (m : Memory) (a k : Nat) (b : Byte) :
    (m.write a b).read k = if k = a then some b else m.read k := Entries.lookup_insert m a k b

/-- A store keeps the canonical form. -/
theorem Memory.wf_write (m : Memory) (a : Nat) (b : Byte) (h : m.wf = true) : (m.write a b).wf = true :=
  Entries.risingFrom_insert m a 0 b h (Nat.zero_le a)

/-- Stored bytes read back, and the bytes outside them read as before. -/
theorem Memory.read_writeBytes (m : Memory) (a k : Nat) (bs : List Byte) :
    (m.writeBytes a bs).read k = if a ≤ k ∧ k < a + bs.length then bs[k - a]? else m.read k := by
  induction bs generalizing m a with
  | nil => rw [if_neg (by simp only [List.length_nil]; omega), Memory.writeBytes]
  | cons b bs ih =>
    rw [Memory.writeBytes, ih, Memory.read_write]
    by_cases h : k = a
    · subst h; simp
    · by_cases h' : a + 1 ≤ k ∧ k < a + 1 + bs.length
      · rw [if_pos h', if_pos ⟨by omega, by simp only [List.length_cons]; omega⟩]
        rw [show k - a = (k - (a + 1)) + 1 by omega, List.getElem?_cons_succ]
      · rw [if_neg h', if_neg h, if_neg (by simp only [List.length_cons]; omega)]

/-- `MemWrite` keeps the canonical form. -/
theorem Memory.wf_writeBytes (m : Memory) (a : Nat) (bs : List Byte) (h : m.wf = true) :
    (m.writeBytes a bs).wf = true := by
  induction bs generalizing m a with
  | nil => exact h
  | cons b bs ih => exact ih _ _ (Memory.wf_write m a b h)

/-- The bytes of a space written whole, and nothing else. -/
theorem Memory.read_ofBytes (a k : Nat) (bs : List Byte) :
    (Memory.ofBytes a bs).read k = if a ≤ k then bs[k - a]? else none := by
  induction bs generalizing a with
  | nil => simp [Memory.ofBytes, Memory.read, Entries.lookup]
  | cons b bs ih =>
    have ih := ih (a + 1)
    simp only [Memory.read] at ih
    simp only [Memory.ofBytes, Memory.read, Entries.lookup, ih]
    by_cases h : k = a
    · subst h; simp
    · by_cases h' : a ≤ k
      · rw [if_neg h, if_pos (by omega), if_pos h', show k - a = (k - (a + 1)) + 1 by omega,
          List.getElem?_cons_succ]
      · rw [if_neg h, if_neg (by omega), if_neg h']

/-- A space written whole is in canonical form. -/
theorem Memory.risingFrom_ofBytes (a : Nat) (bs : List Byte) :
    Entries.risingFrom a (Memory.ofBytes a bs) = true := by
  induction bs generalizing a with
  | nil => rfl
  | cons b bs ih => simp [Memory.ofBytes, Entries.risingFrom, ih]

/-- A space written whole from offset 0 is in canonical form. -/
theorem Memory.wf_ofBytes (bs : List Byte) : (Memory.ofBytes 0 bs).wf = true := Memory.risingFrom_ofBytes 0 bs

/-- `MemRead` answers exactly the bytes that are there, in order. -/
theorem Memory.readBytes_eq_some (m : Memory) (a n : Nat) (bs : List Byte) :
    m.readBytes a n = some bs ↔ bs.length = n ∧ ∀ k, k < n → m.read (a + k) = bs[k]? := by
  induction n generalizing a bs with
  | zero => cases bs <;> simp [Memory.readBytes]
  | succ n ih =>
    rw [Memory.readBytes]
    constructor
    · intro h
      split at h
      · rename_i b rest hb hr
        obtain ⟨hl, hk⟩ := (ih (a + 1) rest).1 hr
        cases h
        refine ⟨by simp [hl], fun k hkn => ?_⟩
        cases k with
        | zero => simpa using hb
        | succ k => simpa [Nat.add_assoc, Nat.add_comm 1 k] using hk k (by omega)
      · cases h
    · rintro ⟨hl, hk⟩
      cases bs with
      | nil => simp at hl
      | cons b rest =>
        have hb : m.read a = some b := by simpa using hk 0 (by omega)
        have hr : m.readBytes (a + 1) n = some rest :=
          (ih (a + 1) rest).2 ⟨by simpa using hl, fun k hkn => by
            simpa [Nat.add_assoc, Nat.add_comm 1 k] using hk (k + 1) (by omega)⟩
        rw [hb, hr]

/-- `MemRead` answers when every byte it asks for holds a value. -/
theorem Memory.readBytes_isSome (m : Memory) (a n : Nat) (h : ∀ k, k < n → (m.read (a + k)).isSome = true) :
    ∃ bs, m.readBytes a n = some bs ∧ bs.length = n := by
  induction n generalizing a with
  | zero => exact ⟨[], rfl, rfl⟩
  | succ n ih =>
    obtain ⟨b, hb⟩ := Option.isSome_iff_exists.1 (h 0 (by omega))
    obtain ⟨bs, hbs, hl⟩ := ih (a + 1) fun k hk => by
      simpa [Nat.add_assoc, Nat.add_comm 1 k] using h (k + 1) (by omega)
    refine ⟨b :: bs, ?_, by simp [hl]⟩
    rw [Memory.readBytes, hbs]
    simp only [Nat.add_zero] at hb
    rw [hb]

/-- A patched word stands at its address, and the other addresses read as before. -/
theorem fetch_patchWord (s : State) (a : Nat) (w : OpWord) (h : patchWf s.csPatch = true) (ha : s.upc.toNat = a) :
    fetch { s with csPatch := patchWord s.csPatch a w } = some w := by
  have hr : Entries.risingFrom 0 s.csPatch = true := by
    simp only [patchWf, Bool.and_eq_true] at h; exact h.1
  subst ha
  by_cases hc : CS s.upc.toNat = some w
  · simp [fetch, patchWord, hc, Entries.lookup_erase s.csPatch _ _ 0 hr]
  · simp [fetch, patchWord, hc, Entries.lookup_insert]

end Sys2Proof.Machine
end

