-- ==== Sys2Proof/Laws/Ops.lean ====
section
/-! SUPPORT. What each meaning and each move of the outside can answer, said once: if it answers a next state, then one
of these cases holds. -/

namespace Sys2Proof.Machine

variable {s u : State}

/-- `PAD` goes on only where the whole message is there, and then builds `PB`. -/
theorem execPad_next (h : execPad s = .next u) :
    ∃ msg, s.msg.readBytes 0 s.len.toNat = some msg ∧
      u = State.advance { s.noteRead s.held.len with
        pb := Memory.ofBytes 0 (pad msg)
        plen := BitVec.ofNat 62 (paddedLength s.len.toNat)
        held := { s.held with plen := true } } := by
  unfold execPad at h
  split at h
  · cases h
  · rename_i msg hm; exact ⟨msg, hm, by cases h; rfl⟩

/-- `BCHK` raises Fatal(1), or counts the blocks. -/
theorem execBchk_next (h : execBchk s = .next u) :
    (s.plen.toNat % 64 ≠ 0 ∧ u = (s.noteRead s.held.plen).raiseFatal .paddedLengthNotBlockMultiple) ∨
    (s.plen.toNat % 64 = 0 ∧ u = State.advance { s.noteRead s.held.plen with
      n := BitVec.ofNat 56 (s.plen.toNat / 64)
      t := 0
      held := { s.held with n := true, t := true } }) := by
  simp only [execBchk, Host.Outcome.next.injEq] at h
  subst h
  by_cases hm : s.plen.toNat % 64 = 0
  · exact .inr ⟨hm, if_neg (by simp [hm])⟩
  · exact .inl ⟨hm, if_pos (by simpa using hm)⟩

/-- `WLD j` raises Fatal(2) for an index it does not have, or loads four bytes. -/
theorem execWld_next {j : BitVec 6} (h : execWld j s = .next u) :
    (15 < j.toNat ∧ u = s.raiseFatal .reservedOperationWord) ∨
    (j.toNat ≤ 15 ∧ ∃ b0 b1 b2 b3, s.pb.readBytes (blockWordOffset s.t j) 4 = some [b0, b1, b2, b3] ∧
      u = ((s.noteRead s.held.t).setW j (be32 b0 b1 b2 b3)).advance) := by
  unfold execWld at h
  split at h
  · rename_i hj
    split at h
    · rename_i b0 b1 b2 b3 hb; exact .inr ⟨hj, b0, b1, b2, b3, hb, by cases h; rfl⟩
    · cases h
  · rename_i hj; exact .inl ⟨by omega, by cases h; rfl⟩

/-- `WEXP i` raises Fatal(2) for an index it does not have, or expands a word. -/
theorem execWexp_next {i : BitVec 6} (h : execWexp i s = .next u) :
    (i.toNat < 16 ∧ u = s.raiseFatal .reservedOperationWord) ∨
    (16 ≤ i.toNat ∧
      u = ((s.noteRead (s.heldW (i - 2) && s.heldW (i - 7) && s.heldW (i - 15) && s.heldW (i - 16))).setW i
        (expandWord (s.getW (i - 2)) (s.getW (i - 7)) (s.getW (i - 15)) (s.getW (i - 16)))).advance) := by
  unfold execWexp at h
  split at h
  · rename_i hi; exact .inr ⟨hi, by cases h; rfl⟩
  · rename_i hi; exact .inl ⟨by omega, by cases h; rfl⟩

/-- `SER j` raises Fatal(2) for an index it does not have, or stores four bytes. -/
theorem execSer_next {j : BitVec 6} (h : execSer j s = .next u) :
    (7 < j.toNat ∧ u = s.raiseFatal .reservedOperationWord) ∨
    (∃ hj : j.toNat < 8, u = State.advance { s.noteRead s.held.h with
      digest := s.digest.writeBytes (digestOffset j) (bytes32 s.h[j.toNat]) }) := by
  unfold execSer at h
  split at h
  · rename_i hj; exact .inr ⟨hj, by cases h; rfl⟩
  · rename_i hj; exact .inl ⟨by omega, by cases h; rfl⟩

/-- START goes on only where it is accepted and `L` is the message's length. -/
theorem hostStart_next {lmax : Config.Limit} {len : Nat} {msg : List Byte} (h : hostStart lmax msg len s = .next u) :
    s.phase.takesStart = true ∧ len ≤ lmax.val ∧ len = msg.length ∧
      u = { s.discardWork with
        phase := .run
        fcause := .none
        upc := 0
        len := BitVec.ofNat 61 len
        msg := Memory.ofBytes 0 msg
        digest := []
        held := { s.discardWork.held with upc := true, len := true } } := by
  unfold hostStart at h
  split at h
  · rename_i hp
    simp only [Bool.and_eq_true, decide_eq_true_eq] at hp
    split at h
    · rename_i hl; exact ⟨hp.1, hp.2, hl, by cases h; rfl⟩
    · cases h
  · cases h

/-- The digest read goes on only in `DONE`, and records the 32 bytes. -/
theorem hostReadDigest_next (h : hostReadDigest s = .next u) :
    s.phase = .done ∧ ∃ bytes, s.digest.readBytes 0 32 = some bytes ∧
      u = { s with seen := .digest bytes :: s.seen } := by
  unfold hostReadDigest at h
  split at h
  · rename_i hp
    split at h
    · rename_i bytes hb; exact ⟨hp, bytes, hb, by cases h; rfl⟩
    · cases h
  · cases h

/-- The message is written only outside `RUN`. -/
theorem hostWriteMsg_next {msg : List Byte} (h : hostWriteMsg msg s = .next u) :
    s.phase ≠ .run ∧ u = { s with msg := Memory.ofBytes 0 msg } := by
  unfold hostWriteMsg at h
  split at h
  · cases h
  · rename_i hp; exact ⟨hp, by cases h; rfl⟩

/-- The core's step executes the decoded operation, raises Fatal(2), or waits. -/
theorem coreStep_next (h : coreStep s = .next u) :
    (s.phase ≠ .run ∧ u = s) ∨
    (s.phase = .run ∧ ∃ w, fetch s = some w ∧
      ((∃ i, decode w = some i ∧ exec i (s.noteRead s.held.upc) = .next u) ∨
       (decode w = none ∧ u = (s.noteRead s.held.upc).raiseFatal .reservedOperationWord))) := by
  unfold coreStep at h
  split at h
  · rename_i hp
    split at h
    · rename_i w hw
      refine .inr ⟨hp, w, hw, ?_⟩
      unfold runWord at h
      split at h
      · rename_i i hi; exact .inl ⟨i, hi, h⟩
      · rename_i hi; exact .inr ⟨hi, by cases h; rfl⟩
    · cases h
  all_goals (rename_i hp; exact .inl ⟨by simp [hp], by cases h; rfl⟩)

/-- The length field is exact for every length the core accepts (R73, R93). -/
theorem lengthField_toNat {len : Nat} (h : len < 2 ^ 61) : (lengthField len).toNat = 8 * len := by
  rw [lengthField, if_pos (Nat.le_sub_one_of_lt h), BitVec.toNat_ofNat, Nat.mod_eq_of_lt (by omega)]

/-- A step is the core's, or the next move of the outside; for every `LMAX`. -/
theorem stepWith_cases (lmax : Config.Limit) (s : State) :
    (s.moves = [] ∧ stepWith lmax s = coreStep s) ∨
    (∃ m rest, s.moves = m :: rest ∧ stepWith lmax s = outsideMove lmax m { s with moves := rest }) := by
  unfold stepWith
  split
  · rename_i h; exact .inl ⟨h, rfl⟩
  · rename_i m rest h; exact .inr ⟨m, rest, h, rfl⟩

/-- A step of the default core is its core's, or the next move of the outside. -/
theorem step_cases (s : State) :
    (s.moves = [] ∧ step s = coreStep s) ∨
    (∃ m rest, s.moves = m :: rest ∧ step s = outsideMove Config.LMAX m { s with moves := rest }) :=
  stepWith_cases Config.LMAX s

end Sys2Proof.Machine
end

