-- ==== Sys2Proof/Laws/PerInstr.lean ====
section
/-! SUPPORT. Facts about every operation as syntax, one lemma per constructor. -/

namespace Sys2Proof.Laws

/-- Appending two fields and taking them apart again. -/
theorem fields_append (a : BitVec 4) (b : BitVec 6) :
    OpWord.op (a ++ b) = a ∧ OpWord.idx (a ++ b) = b := by
  constructor
  · ext k hk
    have := BitVec.getLsbD_append (x := a) (y := b) (i := 6 + k)
    simp only [OpWord.op, BitVec.getElem_extractLsb']
    exact this.trans (by simp [hk])
  · ext k hk
    have := BitVec.getLsbD_append (x := a) (y := b) (i := 0 + k)
    simp only [OpWord.idx, BitVec.getElem_extractLsb']
    exact this.trans (by simp [hk])

/-- The operation word of an operation holds its code in `op` and its index in `idx` (R76). -/
def WordFields.Statement (i : Instr) : Prop :=
  OpWord.op (encode i) = i.opcode ∧ OpWord.idx (encode i) = i.index

theorem WordFields.pad : WordFields.Statement .pad := fields_append _ _
theorem WordFields.bchk : WordFields.Statement .bchk := fields_append _ _
theorem WordFields.hinit : WordFields.Statement .hinit := fields_append _ _
theorem WordFields.wld (j : BitVec 6) : WordFields.Statement (.wld j) := fields_append _ _
theorem WordFields.wexp (i : BitVec 6) : WordFields.Statement (.wexp i) := fields_append _ _
theorem WordFields.vinit : WordFields.Statement .vinit := fields_append _ _
theorem WordFields.rnd (i : BitVec 6) : WordFields.Statement (.rnd i) := fields_append _ _
theorem WordFields.hadd : WordFields.Statement .hadd := fields_append _ _
theorem WordFields.bnext : WordFields.Statement .bnext := fields_append _ _
theorem WordFields.ser (j : BitVec 6) : WordFields.Statement (.ser j) := fields_append _ _
theorem WordFields.fin : WordFields.Statement .fin := fields_append _ _

end Sys2Proof.Laws
end

