-- ==== Sys2Proof/Tests/Slice0.lean ====
section
/-! SUPPORT. The model's own tests: expected values are the spec's (95_test_vectors.md and the rules' examples). Then one
witness for the hypotheses of each statement of Certificates/Slice0/Obligations.lean. -/

namespace Sys2Proof.Tests

open Sys2Proof.Machine Sys2Proof.Safety

/-! ## Well-formedness: each check refuses a term -/

theorem test_wellFormed_refuses_wld_16 : Instr.wellFormed (.wld 16) = false := by decide
theorem test_wellFormed_refuses_wexp_15 : Instr.wellFormed (.wexp 15) = false := by decide
theorem test_wellFormed_refuses_ser_8 : Instr.wellFormed (.ser 8) = false := by decide
theorem test_wellFormed_takes_the_bounds :
    [Instr.wld 15, .wexp 16, .wexp 63, .rnd 0, .rnd 63, .ser 7].all Instr.wellFormed = true := by decide

/-! ## Decoding: every row of R77, its word written out from the rule (V30) -/

theorem test_decode_pad : decode 0b0001_000000#10 = some .pad := by decide
theorem test_decode_bchk : decode 0b0010_000000#10 = some .bchk := by decide
theorem test_decode_hinit : decode 0b0011_000000#10 = some .hinit := by decide
theorem test_decode_wld : decode 0b0100_001010#10 = some (.wld 10) := by decide
theorem test_decode_wexp : decode 0b0101_010001#10 = some (.wexp 17) := by decide
theorem test_decode_vinit : decode 0b0110_000000#10 = some .vinit := by decide
theorem test_decode_rnd : decode 0b0111_100101#10 = some (.rnd 37) := by decide
theorem test_decode_hadd : decode 0b1000_000000#10 = some .hadd := by decide
theorem test_decode_bnext : decode 0b1001_000000#10 = some .bnext := by decide
theorem test_decode_ser : decode 0b1010_000110#10 = some (.ser 6) := by decide
theorem test_decode_fin : decode 0b1011_000000#10 = some .fin := by decide
theorem test_decode_reserved :
    [0x000#10, 0x041#10, 0x110#10, 0x140#10, 0x14f#10, 0x288#10, 0x300#10, 0x3ff#10].all
      (fun w => (decode w).isNone) = true := by decide
theorem test_decodeTableWord : decodeTableWord 16 0x1C5 = some (.rnd 5) ∧ decodeTableWord 16 0x5C5 = none := by decide

/-! ## Word functions (V12, V13, V14) and byte order (R11, R74) -/

theorem test_sigmas :
    sigma0 0x61626380 = 0x940e90ef ∧ sigma1 0x61626380 = 0x7da86405 ∧
    bigSigma0 0x61626380 = 0x8dd59276 ∧ bigSigma1 0x61626380 = 0xc0b865f2 := by decide
theorem test_ch_maj_truth_table :
    Ch 0xf0f0f0f0 0xcccccccc 0xaaaaaaaa = 0xcacacaca ∧ Maj 0xf0f0f0f0 0xcccccccc 0xaaaaaaaa = 0xe8e8e8e8 := by decide
theorem test_add32_drops_the_carry : add32 0xf377ed68 0x61626380 = 0x54da50e8 := by decide
theorem test_bytes32 : bytes32 0x01020304 = [1#8, 2#8, 3#8, 4#8] ∧ be32 0x61 0x62 0x63 0x80 = 0x61626380 := by decide
theorem test_padding_lengths :
    [0, 3, 55, 56, 64, 119, 120, 1000].map (fun l => (zeroFill l, paddedLength l, blockCount l)) =
      [(55, 64, 1), (52, 64, 1), (0, 64, 1), (63, 128, 2), (55, 128, 2), (0, 128, 2), (63, 192, 3), (15, 1024, 16)] := by
  decide

/-! ## One step each -/

/-- The next state, if the outcome is one. -/
def nextOf : Result → Option State
  | .next s => some s
  | .fault _ => none
  | .refused _ => none

/-- Whether the outcome is a next state of which `p` holds. -/
def nextSat (r : Result) (p : State → Bool) : Bool := (nextOf r).any p

/-- Every register holds a value. -/
def allHeld : Held :=
  { upc := true, len := true, plen := true, n := true, t := true, h := true, v := true, w := Vector.replicate 64 true }

/-- "abc" (R92's example). -/
def abc : List Byte := [0x61#8, 0x62#8, 0x63#8]

/-- A state in `RUN` with every register holding a value, "abc" in `MSG` and its padded block in `PB`. -/
def running : State :=
  { State.reset with
    phase := .run, held := allHeld, len := 3, plen := 64, n := 1, t := 0, h := IV, v := IV
    msg := Memory.ofBytes 0 abc, pb := Memory.ofBytes 0 (pad abc) }

theorem test_pad : nextSat (exec .pad running) (fun u =>
    u.plen == 64 && u.pb.readBytes 0 4 == some [0x61, 0x62, 0x63, 0x80] && u.pb.read 63 == some 0x18 &&
      u.pb.read 64 == none && u.upc == 1) = true := by decide
theorem test_bchk : nextSat (exec .bchk { running with plen := 128 }) (fun u => u.n == 2 && u.t == 0) = true := by decide
theorem test_bchk_fatal : nextSat (exec .bchk { running with plen := 100, upc := 1 }) (fun u =>
    u.phase == .fatal && u.fcause.code == 1 && u.n == 1 && u.upc == 1) = true := by decide
theorem test_hinit : nextSat (exec .hinit { running with h := Vector.replicate 8 0 }) (fun u =>
    u.h[0] == 0x6a09e667 && u.h[7] == 0x5be0cd19) = true := by decide
theorem test_wld : nextSat (exec (.wld 0) running) (fun u => u.w[0] == 0x61626380 && u.w[1] == 0) = true := by decide
theorem test_wld_length_field : nextSat (exec (.wld 15) running) (fun u => u.w[15] == 0x00000018) = true := by decide
theorem test_wexp_17 : nextSat (exec (.wexp 17) { running with w := running.w.set 15 0x18 }) (fun u =>
    u.w[17] == 0x000f0000) = true := by decide
theorem test_wexp_16 : nextSat (exec (.wexp 16) { running with w := running.w.set 0 0x61626380 }) (fun u =>
    u.w[16] == 0x61626380) = true := by decide
theorem test_vinit : nextSat (exec .vinit { running with v := Vector.replicate 8 0 }) (fun u =>
    u.v[0] == 0x6a09e667 && u.v[7] == 0x5be0cd19) = true := by decide
theorem test_rnd_0 : nextSat (exec (.rnd 0) { running with w := running.w.set 0 0x61626380 }) (fun u =>
    u.v[0] == 0x5d6aebcd && u.v[1] == 0x6a09e667 && u.v[4] == 0xfa2a4622 && u.v[7] == 0x1f83d9ab) = true := by decide
theorem test_hadd : nextSat (exec .hadd { running with v := #v[0x506e3058#32, 0, 0, 0, 0, 0, 0, 0x961f4894#32] })
    (fun u => u.h[0] == 0xba7816bf && u.h[7] == 0xf20015ad) = true := by decide
theorem test_bnext_leaves : nextSat (exec .bnext { running with upc := 133 }) (fun u =>
    u.t == 1 && u.upc == 134) = true := by decide
theorem test_bnext_loops : nextSat (exec .bnext { running with upc := 133, n := 2 }) (fun u =>
    u.t == 1 && u.upc == 3) = true := by decide
theorem test_ser : nextSat (exec (.ser 7) { running with h := running.h.set 7 0xf20015ad }) (fun u =>
    u.digest.readBytes 28 4 == some [0xf2, 0x00, 0x15, 0xad] && u.digest.read 27 == none) = true := by decide
theorem test_fin : nextSat (exec .fin { running with upc := 142 }) (fun u =>
    u.phase == .done && u.held.h == false && u.upc == 142 && u.pb == []) = true := by decide

/-! Fault and refusal cases (V31). -/

theorem test_reserved_word : nextSat (step (running.withFetchWord 16 0x000)) (fun u =>
    u.phase == .fatal && u.fcause.code == 2) = true := by decide
theorem test_start_too_long : nextOf (hostStart Config.LMAX [] (2 ^ 61) State.reset) = none := by decide
theorem test_start_in_run : hostStart Config.LMAX abc 3 running = .refused .startNotAccepted := rfl
theorem test_start : nextSat (hostStart Config.LMAX abc 3 State.reset) (fun u =>
    u.len == 3 && u.upc == 0 && u.phase == .run) = true := by decide
theorem test_abort_in_fatal : nextSat (hostAbort { running with phase := .fatal, fcause := .reservedOperationWord })
    (fun u => u.phase == .idle && u.fcause.code == 0) = true := by decide
theorem test_digest_read_in_run : hostReadDigest running = .refused .digestNotReadable := rfl

/-! ## Witnesses: for each statement, a state and operands that meet its hypotheses -/

/-- A state in `DONE` with the 32 bytes 0 to 31 in `DIGEST`. -/
def finished : State :=
  { State.reset with phase := .done, digest := Memory.ofBytes 0 ((List.range 32).map fun k => BitVec.ofNat 8 k) }

/-- A state in `FATAL`. -/
def failed : State := { running with phase := .fatal, fcause := .reservedOperationWord }

/-- A core that has just taken START of the empty message, as to all that `Good` asks. -/
def started : State := { State.reset with phase := .run, held := { Held.nothing with upc := true, len := true } }

theorem witness_WordOperatorsFollowTheirFormulas : (1 ≤ 1 ∧ 1 ≤ 31) ∧ (1 ≤ 31 ∧ 31 ≤ 31) := by decide
theorem witness_bit_position : 0 < 32 ∧ 31 < 32 := by decide
theorem witness_ControlStoreHoldsTheListing : 142 < 143 ∧ 143 ≤ 143 := by decide
theorem witness_StepRunsTheDecodedOperation :
    running.phase = .run ∧ fetch running = some 0x040#10 ∧ decode 0x040#10 = some .pad ∧ running.moves = [] ∧
    running.csPatch = [] ∧ ({ running with moves := [.wait] } : State).moves = [.wait] ∧ finished.phase ≠ .run ∧
    finished.moves = [] ∧ ({ finished with moves := [.wait] } : State).moves = [.wait] := by decide
theorem witness_ReservedWordRaisesFatalTwo :
    (running.withFetchWord 16 0).phase = .run ∧ (running.withFetchWord 16 0).moves = [] ∧
    fetch (running.withFetchWord 16 0) = some 0#10 ∧ decode 0#10 = none := by decide
theorem witness_NoControlWordOutsideTheStore :
    let s : State := { running with upc := 143 }
    s.phase = .run ∧ s.moves = [] ∧ s.csPatch = [] ∧ 143 ≤ s.upc.toNat := by decide
theorem witness_PlacedWordRunsNext : patchWf running.csPatch = true ∧ decodeTableWord 16 0x2C0 = some .fin := by decide
theorem witness_PadBuildsThePaddedBuffer :
    abc.length = running.len.toNat ∧ ∀ k, k < abc.length → running.msg.read k = abc[k]? := by decide
theorem witness_PadBuildsThePaddedBuffer_empty :
    ([] : List Byte).length = State.reset.len.toNat ∧ ∀ k, k < ([] : List Byte).length → State.reset.msg.read k = none := by
  decide
theorem witness_MissingByteStopsTheOperation_pad :
    let s : State := { running with msg := [] }
    2 < s.len.toNat ∧ s.msg.read 2 = none := by decide
theorem witness_PaddingBranchesByResidue :
    (64 % 64 = 0) ∧ (1 ≤ 1 % 64 ∧ 54 % 64 ≤ 54) ∧ 55 % 64 = 55 ∧ 56 ≤ 56 % 64 ∧ 56 ≤ 63 % 64 := by decide
theorem witness_PadIsThePaddedByteFunction : 63 < paddedLength abc.length := by decide
theorem witness_PaddedBufferInvariants : abc.length < 2 ^ 61 ∧ 3 < 4 ∧ abc.length < 4 ∧ 4 < (pad abc).length - 8 ∧ pad abc = pad abc := by
  decide
theorem witness_BchkCountsBlocksOrRaisesFatalOne :
    running.plen.toNat % 64 = 0 ∧ ({ running with plen := 100 } : State).plen.toNat % 64 ≠ 0 := by decide
theorem witness_BnextLoopsWhileABlockRemains :
    running.t.toNat + 1 < 2 ^ 56 ∧ ¬ running.t.toNat + 1 < running.n.toNat ∧
    running.t.toNat + 1 < ({ running with n := 2 } : State).n.toNat := by decide
theorem witness_WldLoadsABigEndianWord :
    (15#6).toNat ≤ 15 ∧ running.pb.read (64 * running.t.toNat + 4 * 15) = some 0 ∧
    running.pb.read (64 * running.t.toNat + 4 * 15 + 1) = some 0 ∧
    running.pb.read (64 * running.t.toNat + 4 * 15 + 2) = some 0 ∧
    running.pb.read (64 * running.t.toNat + 4 * 15 + 3) = some 0x18 := by decide
theorem witness_MissingByteStopsTheOperation_wld :
    (15#6).toNat ≤ 15 ∧ 3 < 4 ∧ State.reset.pb.read (64 * State.reset.t.toNat + 4 * 15 + 3) = none := by decide
theorem witness_WexpExpandsFromFourEarlierWords : 16 ≤ (16#6).toNat ∧ 16 ≤ (63#6).toNat := by decide
theorem witness_SchedComputesTheSchedule :
    (pad abc).length = 64 ∧ ∀ k, k < 64 → running.pb.read (64 * running.t.toNat + k) = (pad abc)[k]? := by decide
theorem witness_CompressFoldsOneBlock :
    (pad abc).length = 64 ∧ ∀ k, k < 64 → running.pb.read (64 * running.t.toNat + k) = (pad abc)[k]? := by decide
theorem witness_RndIsOneRound : ∃ T1 T2 : Nat,
    T1 = (running.v[7].toNat + (bigSigma1 running.v[4]).toNat + (Ch running.v[4] running.v[5] running.v[6]).toNat +
      (K 0).toNat + (running.getW 0).toNat) % 2 ^ 32 ∧
    T2 = ((bigSigma0 running.v[0]).toNat + (Maj running.v[0] running.v[1] running.v[2]).toNat) % 2 ^ 32 :=
  ⟨_, _, rfl, rfl⟩
theorem witness_SerStoresFourDigestBytes : (0#6).toNat < 8 ∧ (7#6).toNat < 8 := by decide
theorem witness_SerializeWritesTheDigest : 31 < 32 ∧ serialize IV = serialize IV := by decide
theorem witness_IllegalIndexRaisesFatalTwo :
    Instr.wellFormed (.wld 16) = false ∧ Instr.wellFormed (.wexp 15) = false ∧ Instr.wellFormed (.ser 8) = false := by
  decide
theorem witness_TransactionComputesTheDigest :
    State.reset.phase.takesStart = true ∧ State.reset.csPatch = [] ∧ abc.length ≤ Config.LMAX.val ∧ 142 < 12 + 131 * blockCount abc.length := by decide
theorem witness_ResetMayFallInAnyPhase : ({ running with moves := [.reset] } : State).moves = .reset :: [] := rfl
theorem witness_AbortHasTheEffectOfReset : ({ running with moves := [.abort] } : State).moves = .abort :: [] := rfl
theorem witness_StartBeginsATransaction :
    (State.reset.phase = .idle ∨ State.reset.phase = .done) ∧ abc.length ≤ Config.LMAX.val ∧
    abc.length ≤ (3 : Config.Limit).val ∧ (running.phase = .run ∨ running.phase = .fatal ∨ (3 : Config.Limit).val < 3) ∧
    (finished.phase = .run ∨ finished.phase = .fatal ∨ (3 : Config.Limit).val < 4) ∧
    ({ State.reset with moves := [.start abc 3] } : State).moves = .start abc 3 :: [] := by decide
theorem witness_HostReadsStatusAndDigest :
    let bytes : List Byte := (List.range 32).map fun k => BitVec.ofNat 8 k
    finished.phase = .done ∧ bytes.length = 32 ∧ (∀ k, k < 32 → finished.digest.read k = bytes[k]?) ∧
    running.phase ≠ .done ∧ ({ running with moves := [.readStatus] } : State).moves = .readStatus :: [] ∧
    ({ finished with moves := [.readDigest] } : State).moves = .readDigest :: [] := by decide
theorem witness_MessageIsFixedInRun :
    running.phase = .run ∧ (nextOf (step running)).isSome = true ∧ finished.phase ≠ .run ∧
    ({ finished with moves := [.writeMsg abc] } : State).moves = .writeMsg abc :: [] := by decide
theorem witness_PhaseChangesAsTabled_idle :
    nextSat (step { running with moves := [.abort] }) (fun u => u.phase == .idle) = true := by decide
theorem witness_PhaseChangesAsTabled_run :
    nextSat (step { finished with moves := [.start abc 3] }) (fun u => u.phase == .run) = true := by decide
theorem witness_PhaseChangesAsTabled_done :
    nextSat (step { running with upc := 142 }) (fun u => u.phase == .done) = true := by decide
theorem witness_PhaseChangesAsTabled_fatal :
    nextSat (step { running with upc := 1, plen := 100 }) (fun u => u.phase == .fatal) = true := by decide
theorem witness_FatalIsLeftByAbortOrResetOnly :
    failed.phase = .fatal ∧ (nextOf (step failed)).isSome = true ∧
    (nextOf (step { failed with moves := [.reset] })).isSome = true := by decide
theorem witness_DigestIsFinalInDone :
    finished.phase = .done ∧ (nextOf (step finished)).isSome = true ∧
    (nextOf (step { finished with moves := [.start abc 3] })).isSome = true := by decide
theorem witness_ControlStoreIsNeverWritten : (nextOf (step running)).isSome = true := by decide
theorem witness_OperationsWriteOnlyTheirPieces :
    [Instr.pad, .bchk, .hinit, .wld 15, .wexp 63, .vinit, .rnd 63, .hadd, .bnext, .ser 7, .fin].all
      (fun i => (nextOf (exec i running)).isSome) = true := by decide
theorem witness_OperationsDependOnlyOnWhatTheyRead :
    (∀ p, reads (.rnd 0) running p → p.same running { running with h := Vector.replicate 8 0 }) ∧
    (nextOf (exec (.rnd 0) running)).isSome = true ∧
    (nextOf (exec (.rnd 0) { running with h := Vector.replicate 8 0 })).isSome = true ∧
    writes (.rnd 0) running (.v 0) := by
  refine ⟨fun p hp => ?_, by decide, by decide, .inr (.inr ⟨0, rfl⟩)⟩
  rcases hp with rfl | rfl | rfl | rfl | ⟨j, rfl⟩ <;> simp [Piece.same]
theorem witness_UpcAdvancesByTheRule :
    nextSat (exec .hinit running) (fun u => u.phase == running.phase && u.phase == .run) = true ∧
    running.upc.toNat + 1 < 2 ^ 8 ∧
    nextSat (exec .bchk { running with plen := 100 }) (fun u => u.phase == .fatal) = true ∧
    (nextOf (exec .bnext running)).isSome = true ∧ (nextOf (exec .fin running)).isSome = true := by decide
theorem witness_StepKeepsTheCanonicalForm : Canonical running ∧ (nextOf (step running)).isSome = true := by decide

/-- A state of a correct core in `RUN`, for the statements over `Good`. -/
theorem witness_Good : Good started := by
  refine ⟨by decide, rfl, rfl, rfl, fun _ => ?_, fun h => ?_⟩
  · constructor <;> first | rfl | simp [started, State.reset, Held.nothing]
  · simp [started] at h
theorem witness_StepKeepsACorrectCore : nextSat (step started) (fun u => u.phase == .run) = true := by decide
theorem witness_CorrectCoreAlwaysSteps : started.moves = [] := rfl
theorem witness_LmaxLimitsOnlyStart :
    let s : State := { State.reset with moves := [.start abc abc.length] }
    s.moves = .start abc abc.length :: [] ∧ s.phase = .idle ∧ abc.length ≤ (3 : Config.Limit).val ∧
    (2 : Config.Limit).val < abc.length ∧ (nextOf (stepWith 3 s)).isSome = true := by decide
theorem witness_LmaxLimitsOnlyStart_other_moves :
    ∀ msg len rest, ({ running with moves := [.wait] } : State).moves ≠ .start msg len :: rest :=
  fun _ _ _ h => by cases h

end Sys2Proof.Tests
end

section
/-! The word operators as numbers and bit by bit (R10), and the byte order of words and lengths (R11). -/

namespace Sys2Proof.Machine

/-- `rotr` as the sum that R10 gives: the bits that stay and the bits that come round do not overlap. -/
theorem rotr_toNat (x : Word) {n : Nat} (hn : n ≤ 31) :
    (rotr x n).toNat = (x.toNat / 2 ^ n + x.toNat % 2 ^ n * 2 ^ (32 - n)) % 2 ^ 32 := by
  have hpow : 2 ^ n * 2 ^ (32 - n) = 2 ^ 32 := by rw [← pow_add, Nat.add_sub_cancel' (by omega)]
  have hstay : x.toNat / 2 ^ n < 2 ^ (32 - n) := Nat.div_lt_of_lt_mul (hpow ▸ x.isLt)
  have hround : x.toNat * 2 ^ (32 - n) % 2 ^ 32 = x.toNat % 2 ^ n * 2 ^ (32 - n) := by
    rw [← hpow, Nat.mul_mod_mul_right]
  have hsum : (rotr x n).toNat = x.toNat / 2 ^ n + x.toNat % 2 ^ n * 2 ^ (32 - n) := by
    rw [rotr, BitVec.toNat_rotateRight, Nat.mod_eq_of_lt (by omega : n < 32), Nat.shiftRight_eq_div_pow,
      Nat.shiftLeft_eq, hround, Nat.or_comm, Nat.mul_comm, ← Nat.two_pow_add_eq_or_of_lt hstay, Nat.add_comm]
  rw [← hsum, Nat.mod_eq_of_lt (rotr x n).isLt]

/-- Bit `k` of a rotation is bit `(k + n) mod 32` of the word (R10). -/
theorem getLsbD_rotr (x : Word) {n k : Nat} (hn : n ≤ 31) (hk : k < 32) :
    (rotr x n).getLsbD k = x.getLsbD ((k + n) % 32) := by
  rw [rotr, BitVec.getLsbD_rotateRight_of_lt (by omega)]
  by_cases hstay : k < 32 - n
  · rw [decide_eq_true hstay, cond_true, Nat.mod_eq_of_lt (by omega), Nat.add_comm]
  · have hwrap : (k + n) % 32 = k - (32 - n) := by omega
    simp [hstay, hk, hwrap]

/-- A right shift is a division: the bits shifted out are dropped (R10). -/
theorem shr_toNat (x : Word) (n : Nat) : (shr x n).toNat = x.toNat / 2 ^ n := by
  rw [shr, BitVec.toNat_ushiftRight, Nat.shiftRight_eq_div_pow]

/-- A bit of `xor` is the sum of the bits modulo 2 (R10). -/
theorem toNat_getLsbD_xor (x y : Word) (k : Nat) :
    ((x ^^^ y).getLsbD k).toNat = ((x.getLsbD k).toNat + (y.getLsbD k).toNat) % 2 := by
  rw [BitVec.getLsbD_xor]
  cases x.getLsbD k <;> cases y.getLsbD k <;> rfl

/-- A bit of `and` is the product of the bits (R10). -/
theorem toNat_getLsbD_and (x y : Word) (k : Nat) :
    ((x &&& y).getLsbD k).toNat = (x.getLsbD k).toNat * (y.getLsbD k).toNat := by
  rw [BitVec.getLsbD_and]
  cases x.getLsbD k <;> cases y.getLsbD k <;> rfl

/-- Settles O1, operator by operator. -/
theorem wordOperatorsFollowTheirFormulas : Obligations.WordOperatorsFollowTheirFormulas := by
  intro x y z n _ hn
  exact ⟨BitVec.toNat_add x y, BitVec.add_assoc x y z, BitVec.add_comm x y, rotr_toNat x hn,
    fun k hk => getLsbD_rotr x hn hk, shr_toNat x n, fun k _ => toNat_getLsbD_xor x y k,
    fun k _ => toNat_getLsbD_and x y k, BitVec.toNat_not⟩

/-! Big-endian: the byte appended last is the least significant. -/

/-- Appending a byte multiplies by 256 and adds the byte. -/
theorem toNat_append_byte {n : Nat} (x : BitVec n) (b : Byte) : (x ++ b).toNat = x.toNat * 2 ^ 8 + b.toNat := by
  rw [BitVec.toNat_append, ← Nat.shiftLeft_add_eq_or_of_lt b.isLt, Nat.shiftLeft_eq]

/-- The byte of a word or length at bit `k`, as a number. -/
theorem toNat_extractLsb'_byte {n : Nat} (x : BitVec n) (k : Nat) :
    (x.extractLsb' k 8).toNat = x.toNat / 2 ^ k % 2 ^ 8 := by
  rw [BitVec.extractLsb'_toNat, Nat.shiftRight_eq_div_pow]

/-- `be32` as the sum that R11 gives. -/
theorem be32_toNat (b0 b1 b2 b3 : Byte) :
    (be32 b0 b1 b2 b3).toNat = b0.toNat * 2 ^ 24 + b1.toNat * 2 ^ 16 + b2.toNat * 2 ^ 8 + b3.toNat := by
  rw [be32, toNat_append_byte, toNat_append_byte, toNat_append_byte]
  ring

/-- `bytes32` undoes `be32` (R11). -/
theorem bytes32_be32 (b0 b1 b2 b3 : Byte) : bytes32 (be32 b0 b1 b2 b3) = [b0, b1, b2, b3] := by
  have h0 := b0.isLt
  have h1 := b1.isLt
  have h2 := b2.isLt
  have h3 := b3.isLt
  simp only [bytes32, List.cons.injEq, and_true]
  refine ⟨?_, ?_, ?_, ?_⟩ <;> apply BitVec.eq_of_toNat_eq <;> rw [toNat_extractLsb'_byte, be32_toNat] <;> omega

/-- `be32` undoes `bytes32` (R11). -/
theorem be32_bytes32 (w : Word) :
    be32 (w.extractLsb' 24 8) (w.extractLsb' 16 8) (w.extractLsb' 8 8) (w.extractLsb' 0 8) = w := by
  apply BitVec.eq_of_toNat_eq
  have hw := w.isLt
  simp only [be32_toNat, toNat_extractLsb'_byte]
  omega

/-- Eight bytes spell the sum that R11 gives for `be64`. -/
theorem beNat_eight_bytes (b0 b1 b2 b3 b4 b5 b6 b7 : Byte) :
    beNat [b0, b1, b2, b3, b4, b5, b6, b7] =
      b0.toNat * 2 ^ 56 + b1.toNat * 2 ^ 48 + b2.toNat * 2 ^ 40 + b3.toNat * 2 ^ 32 +
        b4.toNat * 2 ^ 24 + b5.toNat * 2 ^ 16 + b6.toNat * 2 ^ 8 + b7.toNat := by
  simp only [beNat, List.foldl_cons, List.foldl_nil]
  ring

/-- `be64` undoes `bytes64` (R11). -/
theorem beNat_bytes64 (v : BitVec 64) : beNat (bytes64 v) = v.toNat := by
  have hv := v.isLt
  rw [bytes64, beNat_eight_bytes]
  simp only [toNat_extractLsb'_byte]
  omega

/-- Settles O2: each conversion's formula, and that each undoes the other. -/
theorem bytesAndWordsAreBigEndian : Obligations.BytesAndWordsAreBigEndian :=
  ⟨fun b0 b1 b2 b3 => ⟨be32_toNat b0 b1 b2 b3, bytes32_be32 b0 b1 b2 b3⟩,
    fun w => ⟨_, _, _, _, rfl, be32_bytes32 w⟩,
    beNat_eight_bytes,
    fun v => ⟨rfl, beNat_bytes64 v⟩⟩

end Sys2Proof.Machine
end

section
/-! START, and what LMAX decides of the step relation (R7, R39, R180). -/

namespace Sys2Proof.Machine

/-- START is accepted in `IDLE` and `DONE` (R180). -/
theorem Phase.takesStart_iff (p : Phase) : p.takesStart = true ↔ p = .idle ∨ p = .done := by
  cases p <;> simp [Phase.takesStart]

/-- The state that an accepted START of the whole message `msg` leaves. -/
def State.begin (s : State) (msg : List Byte) : State :=
  { s.discardWork with
    phase := .run
    fcause := .none
    upc := 0
    len := BitVec.ofNat 61 msg.length
    msg := Memory.ofBytes 0 msg
    digest := []
    held := { s.discardWork.held with upc := true, len := true } }

/-- After START only `upc` and `LEN` hold a value (R180). -/
@[simp] theorem State.begin_held (s : State) (msg : List Byte) :
    (s.begin msg).held = { Held.nothing with upc := true, len := true } := rfl

/-- START reads the message's length into `LEN` exactly, within R7's bound. -/
theorem State.begin_len_toNat (s : State) {msg : List Byte} (h : msg.length < 2 ^ 61) :
    (s.begin msg).len.toNat = msg.length := Nat.mod_eq_of_lt h

/-- START puts the message, and nothing else, into the message space. -/
theorem State.begin_msg_read (s : State) (msg : List Byte) (k : Nat) : (s.begin msg).msg.read k = msg[k]? :=
  (Memory.read_ofBytes 0 k msg).trans (if_pos k.zero_le)

/-- In `IDLE` and `DONE`, for the true length within `LMAX` (R180). -/
theorem hostStart_accepted {lmax : Config.Limit} {msg : List Byte} {s : State} (hp : s.phase.takesStart = true)
    (hl : msg.length ≤ lmax.val) : hostStart lmax msg msg.length s = .next (s.begin msg) := by
  simp only [hostStart, hp, decide_eq_true hl, Bool.and_self, if_true]
  rfl

/-- In `RUN`, in `FATAL` and beyond `LMAX` the core has no transition for START, whether or not `len` is the true
length (R180). -/
theorem hostStart_refused {lmax : Config.Limit} {msg : List Byte} {len : Nat} {s : State}
    (h : s.phase = .run ∨ s.phase = .fatal ∨ lmax.val < len) :
    hostStart lmax msg len s = .refused .startNotAccepted := by
  refine if_neg ?_
  rcases h with h | h | h
  · simp [h, Phase.takesStart]
  · simp [h, Phase.takesStart]
  · simp [h]

/-- What START does on one core it does on every core with a greater `LMAX`. -/
theorem hostStart_mono {lmax lmax' : Config.Limit} {msg : List Byte} {len : Nat} {s u : State}
    (hle : lmax.val ≤ lmax'.val) (h : hostStart lmax msg len s = .next u) : hostStart lmax' msg len s = .next u := by
  obtain ⟨hp, hl, rfl, rfl⟩ := hostStart_next h
  exact hostStart_accepted hp (hl.trans hle)

/-- The default `LMAX` is the greatest that R7 allows. -/
theorem limit_le_LMAX (lmax : Config.Limit) : lmax.val ≤ Config.LMAX.val := Nat.le_sub_one_of_lt lmax.isLt

/-- A step whose turn is the outside's is its next move. -/
theorem stepWith_cons (lmax : Config.Limit) {s : State} {m : Move} {rest : List Move} (h : s.moves = m :: rest) :
    stepWith lmax s = outsideMove lmax m { s with moves := rest } := by
  rw [stepWith, h]

/-- A step with no move of the outside is the core's. -/
theorem stepWith_nil (lmax : Config.Limit) {s : State} (h : s.moves = []) : stepWith lmax s = coreStep s := by
  rw [stepWith, h]

/-- No move but START looks at `LMAX`. -/
theorem outsideMove_eq_of_not_start (lmax lmax' : Config.Limit) {m : Move} (h : ∀ msg len, m ≠ .start msg len)
    (s : State) : outsideMove lmax m s = outsideMove lmax' m s := by
  cases m
  case start msg len => exact absurd rfl (h msg len)
  all_goals rfl

/-- A step whose move is not START is the same for every `LMAX`. -/
theorem stepWith_eq_step_of_not_start (lmax : Config.Limit) {s : State}
    (h : ∀ msg len rest, s.moves ≠ .start msg len :: rest) : stepWith lmax s = step s := by
  rw [step]
  cases hm : s.moves with
  | nil => rw [stepWith_nil _ hm, stepWith_nil _ hm]
  | cons m rest =>
    rw [stepWith_cons _ hm, stepWith_cons _ hm]
    exact outsideMove_eq_of_not_start _ _ (fun msg len e => h msg len rest (e ▸ hm)) _

/-- A step of a core with any `LMAX` is a step of the default core. -/
theorem step_of_stepWith {lmax : Config.Limit} {s u : State} (h : stepWith lmax s = .next u) : step s = .next u := by
  by_cases hstart : ∃ msg len rest, s.moves = .start msg len :: rest
  · obtain ⟨msg, len, rest, hm⟩ := hstart
    rw [stepWith_cons _ hm] at h
    rw [step, stepWith_cons _ hm]
    exact hostStart_mono (limit_le_LMAX lmax) h
  · rw [← stepWith_eq_step_of_not_start lmax fun msg len rest hm => hstart ⟨msg, len, rest, hm⟩]
    exact h

/-- Settles O40: START accepted, START refused, and the step that is a START. -/
theorem startBeginsATransaction : Obligations.StartBeginsATransaction := by
  refine ⟨fun lmax msg s hp hl => ?_, fun _ _ _ _ h => hostStart_refused h, fun s msg len rest hm => ?_⟩
  · exact ⟨s.begin msg, hostStart_accepted (s.phase.takesStart_iff.2 hp) hl,
      s.begin_len_toNat (hl.trans_lt lmax.isLt), rfl, rfl, rfl, s.begin_held msg, fun _ => rfl, fun _ => rfl,
      s.begin_msg_read msg, rfl, rfl, rfl, rfl⟩
  · exact ⟨fun lmax => stepWith_cons lmax hm, Config.LMAX, rfl, stepWith_cons Config.LMAX hm⟩

/-- Settles O54: the default `LMAX` is the greatest, and only START looks at it. -/
theorem lmaxLimitsOnlyStart : Obligations.LmaxLimitsOnlyStart := by
  refine fun lmax s => ⟨fun _ => step_of_stepWith, stepWith_eq_step_of_not_start lmax,
    fun msg rest hm hp => ⟨fun hl => ?_, fun hl => ?_⟩⟩
  · rw [stepWith_cons lmax hm]
    exact ⟨_, hostStart_accepted (s.phase.takesStart_iff.2 hp) hl⟩
  · rw [stepWith_cons lmax hm]
    exact hostStart_refused (.inr (.inr hl))

end Sys2Proof.Machine
end

section
/-! Facts about the padded length, the byte spaces and the control store that the invariants rest on. -/

namespace Sys2Proof.Machine

/-! The padded length (R90). -/

theorem length_pad (msg : List Byte) : (pad msg).length = paddedLength msg.length := by
  simp only [pad, paddedLength, bytes64, List.length_append, List.length_replicate, List.length_cons,
    List.length_nil]

theorem paddedLength_mod_64 (len : Nat) : paddedLength len % 64 = 0 := by
  unfold paddedLength zeroFill; omega

theorem paddedLength_bounds (len : Nat) : 64 ≤ paddedLength len ∧ paddedLength len ≤ len + 72 := by
  unfold paddedLength zeroFill; omega

/-- The padded length of every message that `LEN` can count fits `PLEN`. -/
theorem ofNat_paddedLength_toNat (len : BitVec 61) :
    (BitVec.ofNat 62 (paddedLength len.toNat)).toNat = paddedLength len.toNat := by
  have hle := (paddedLength_bounds len.toNat).2
  have hlen := len.isLt
  rw [BitVec.toNat_ofNat, Nat.mod_eq_of_lt (by omega)]

/-! Which bytes a space holds, and what `MemRead` makes of it (R12, R36, R55). -/

/-- A space written whole holds a value exactly at the offsets of its bytes. -/
theorem isSome_read_ofBytes (bs : List Byte) (k : Nat) :
    ((Memory.ofBytes 0 bs).read k).isSome = true ↔ k < bs.length := by
  simp [Memory.read_ofBytes]

/-- `MemRead` answers nothing where one of the bytes is not there (R55). -/
theorem readBytes_eq_none {m : Memory} {a n k : Nat} (hk : k < n) (h : m.read (a + k) = none) :
    m.readBytes a n = none := by
  cases hb : m.readBytes a n with
  | none => rfl
  | some bs =>
    obtain ⟨hlen, hbytes⟩ := (Memory.readBytes_eq_some m a n bs).1 hb
    have hread := hbytes k hk
    rw [h, List.getElem?_eq_getElem (hlen ▸ hk)] at hread
    cases hread

/-- Byte spaces that agree on the bytes asked for answer alike. -/
theorem readBytes_congr {m₁ m₂ : Memory} {a n : Nat} (h : ∀ k, a ≤ k → k < a + n → m₂.read k = m₁.read k) :
    m₂.readBytes a n = m₁.readBytes a n := by
  induction n generalizing a with
  | zero => rfl
  | succ n ih =>
    rw [Memory.readBytes, Memory.readBytes, h a (by omega) (by omega), ih fun k hlo hhi => h k (by omega) (by omega)]

/-! Where an operation stands in the control store (R79). -/

/-- The address of an operation with a legal index. -/
def address : Instr → Nat
  | .pad => 0
  | .bchk => 1
  | .hinit => 2
  | .wld j => 3 + j.toNat
  | .wexp i => 3 + i.toNat
  | .vinit => 67
  | .rnd i => 68 + i.toNat
  | .hadd => 132
  | .bnext => 133
  | .ser j => 134 + j.toNat
  | .fin => 142

theorem address_of_opAt {a : Nat} {i : Instr} (ha : a ≤ 142) (h : opAt a = some i) : a = address i := by
  have hall : (List.range 143).all (fun a => (opAt a).all fun i => a == address i) = true := by decide +kernel
  have hrow := List.all_eq_true.1 hall a (List.mem_range.2 (by omega))
  simpa [h] using hrow

/-- The rows of the control store, in order, are the expansion of DIGEST for one block (R79, R83). -/
theorem opAt_eq_digestOps : ∀ a, a < 143 → opAt a = (digestOps 1)[a]? := by decide +kernel

/-- From address 143 on there is no control word (R25). -/
theorem CS_eq_none {a : Nat} (h : 143 ≤ a) : CS a = none := by
  unfold CS
  repeat rw [if_neg (by omega)]

end Sys2Proof.Machine
end

section
/-! What an operation leaves unchanged (R51): one rule per state operation, put together per operation. -/

namespace Sys2Proof.Safety

open Sys2Proof.Machine

variable {s u r : State} {c d : Piece → Prop}

/-- A piece that is the same over two changes in a row is the same over both. -/
theorem Piece.same_trans {p : Piece} (h : p.same s u) (h' : p.same u r) : p.same s r := by
  cases p
  case byte | phase | fcause | csPatch | moves | seen | fresh | noValueRead => exact Eq.trans h' h
  all_goals exact ⟨h'.1.trans h.1, h'.2.trans h.2⟩

/-- What two changes in a row change is what one of them changes. -/
theorem Unchanged.trans (h : Unchanged c s u) (h' : Unchanged d u r) : Unchanged (fun p => c p ∨ d p) s r :=
  fun p hp => Piece.same_trans (h p fun hc => hp (.inl hc)) (h' p fun hd => hp (.inr hd))

theorem Unchanged.mono (h : Unchanged c s u) (hcd : ∀ p, c p → d p) : Unchanged d s u :=
  fun p hp => h p fun hc => hp (hcd p hc)

/-! One rule per state operation. -/

theorem unchanged_setUpc (s : State) (a : BitVec 8) : Unchanged (fun p => p = .upc) s (s.setUpc a) := by
  intro p hp; cases p <;> simp_all [Piece.same, spaceOf]

theorem unchanged_advance (s : State) : Unchanged (fun p => p = .upc) s s.advance := unchanged_setUpc s _

theorem unchanged_noteRead (s : State) (ok : Bool) : Unchanged (fun p => p = .noValueRead) s (s.noteRead ok) := by
  intro p hp; cases p <;> simp_all [Piece.same, spaceOf]

theorem unchanged_raiseFatal (s : State) (x : FCause) : Unchanged fatalWrites s (s.raiseFatal x) := by
  intro p hp; cases p <;> simp_all [Piece.same, spaceOf, fatalWrites]

theorem unchanged_setH (s : State) (x : Vector Word 8) : Unchanged (fun p => ∃ j, p = .h j) s (s.setH x) := by
  intro p hp; cases p <;> simp_all [Piece.same, spaceOf]

theorem unchanged_setV (s : State) (x : Vector Word 8) : Unchanged (fun p => ∃ j, p = .v j) s (s.setV x) := by
  intro p hp; cases p <;> simp_all [Piece.same, spaceOf]

theorem unchanged_setW (s : State) (i : BitVec 6) (x : Word) : Unchanged (fun p => p = .w i.toFin) s (s.setW i x) := by
  intro p hp
  cases p
  case w k =>
    have hk : i.toNat ≠ k.val := fun e => hp (congrArg Piece.w (Fin.ext e.symm))
    simp [Piece.same, hk]
  all_goals simp [Piece.same, spaceOf]

theorem unchanged_setT (s : State) (k : Nat) :
    Unchanged (fun p => p = .t ∨ (p = .fresh ∧ 2 ^ 56 ≤ k)) s (s.setT k) := by
  intro p hp
  cases p
  case fresh => exact State.setT_fresh_of_lt s (not_le.1 fun hk => hp (.inr ⟨rfl, hk⟩))
  all_goals simp_all [Piece.same, spaceOf]

theorem unchanged_discardLen (s : State) : Unchanged (fun p => p = .len) s s.discardLen := by
  intro p hp; cases p <;> simp_all [Piece.same, spaceOf]

theorem unchanged_discardWork (s : State) :
    Unchanged (fun p => p = .plen ∨ p = .n ∨ p = .t ∨ p = .fresh ∨ (∃ j, p = .h j) ∨ (∃ j, p = .v j) ∨
      (∃ k, p = .w k) ∨ ∃ a, p = .byte .pb a) s s.discardWork := by
  intro p hp
  cases p
  case byte space a => cases space <;> simp_all [Piece.same, spaceOf]
  all_goals simp_all [Piece.same]

theorem unchanged_padded (s : State) (m : Memory) (x : BitVec 62) :
    Unchanged (fun p => p = .plen ∨ ∃ a, p = .byte .pb a) s
      { s with pb := m, plen := x, held := { s.held with plen := true } } := by
  intro p hp
  cases p
  case byte space a => cases space <;> simp_all [Piece.same, spaceOf]
  all_goals simp_all [Piece.same]

theorem unchanged_counted (s : State) (x y : BitVec 56) :
    Unchanged (fun p => p = .n ∨ p = .t) s { s with n := x, t := y, held := { s.held with n := true, t := true } } := by
  intro p hp; cases p <;> simp_all [Piece.same, spaceOf]

theorem unchanged_finished (s : State) : Unchanged (fun p => p = .phase) s { s with phase := .done } := by
  intro p hp; cases p <;> simp_all [Piece.same, spaceOf]

/-- Storing bytes in `DIGEST` changes those bytes only. -/
theorem unchanged_stored (s : State) (a : Nat) (bs : List Byte) :
    Unchanged (fun p => ∃ k, p = .byte .digest k ∧ a ≤ k ∧ k < a + bs.length) s
      { s with digest := s.digest.writeBytes a bs } := by
  intro p hp
  cases p
  case byte space k =>
    cases space
    case digest => exact (Memory.read_writeBytes ..).trans (if_neg fun hk => hp ⟨k, rfl, hk⟩)
    all_goals rfl
  all_goals simp [Piece.same]

/-! One frame per operation. -/

theorem unchanged_execPad (h : execPad s = .next u) : Unchanged (writes .pad s) s u := by
  obtain ⟨msg, -, rfl⟩ := execPad_next h
  refine (((unchanged_noteRead s _).trans (unchanged_padded _ _ _)).trans (unchanged_advance _)).mono fun p hp => ?_
  rcases hp with (rfl | rfl | ⟨a, rfl⟩) | rfl <;> simp [writes]

theorem unchanged_execBchk (h : execBchk s = .next u) : Unchanged (writes .bchk s) s u := by
  rcases execBchk_next h with ⟨hm, rfl⟩ | ⟨hm, rfl⟩
  · refine ((unchanged_noteRead s _).trans (unchanged_raiseFatal _ _)).mono fun p hp => ?_
    simpa [writes, hm] using hp
  · refine (((unchanged_noteRead s _).trans (unchanged_counted _ _ _)).trans (unchanged_advance _)).mono fun p hp => ?_
    rcases hp with (rfl | rfl | rfl) | rfl <;> simp [writes, hm]

theorem unchanged_execHinit (h : execHinit s = .next u) : Unchanged (writes .hinit s) s u := by
  cases h
  exact ((unchanged_setH s _).trans (unchanged_advance _)).mono fun p hp => hp.symm

theorem unchanged_execWld {j : BitVec 6} (h : execWld j s = .next u) : Unchanged (writes (.wld j) s) s u := by
  rcases execWld_next h with ⟨hj, rfl⟩ | ⟨hj, b0, b1, b2, b3, -, rfl⟩
  · exact (unchanged_raiseFatal s _).mono fun p hp => by simpa [writes, Nat.not_le.2 hj] using hp
  · refine (((unchanged_noteRead s _).trans (unchanged_setW _ j _)).trans (unchanged_advance _)).mono fun p hp => ?_
    rcases hp with (rfl | rfl) | rfl <;> simp [writes, hj]

theorem unchanged_execWexp {i : BitVec 6} (h : execWexp i s = .next u) : Unchanged (writes (.wexp i) s) s u := by
  rcases execWexp_next h with ⟨hi, rfl⟩ | ⟨hi, rfl⟩
  · exact (unchanged_raiseFatal s _).mono fun p hp => by simpa [writes, Nat.not_le.2 hi] using hp
  · refine (((unchanged_noteRead s _).trans (unchanged_setW _ i _)).trans (unchanged_advance _)).mono fun p hp => ?_
    rcases hp with (rfl | rfl) | rfl <;> simp [writes, hi]

theorem unchanged_execVinit (h : execVinit s = .next u) : Unchanged (writes .vinit s) s u := by
  cases h
  refine (((unchanged_noteRead s _).trans (unchanged_setV _ _)).trans (unchanged_advance _)).mono fun p hp => ?_
  rcases hp with (rfl | ⟨j, rfl⟩) | rfl <;> simp [writes]

theorem unchanged_execRnd {i : BitVec 6} (h : execRnd i s = .next u) : Unchanged (writes (.rnd i) s) s u := by
  cases h
  refine (((unchanged_noteRead s _).trans (unchanged_setV _ _)).trans (unchanged_advance _)).mono fun p hp => ?_
  rcases hp with (rfl | ⟨j, rfl⟩) | rfl <;> simp [writes]

theorem unchanged_execHadd (h : execHadd s = .next u) : Unchanged (writes .hadd s) s u := by
  cases h
  refine (((unchanged_noteRead s _).trans (unchanged_setH _ _)).trans (unchanged_advance _)).mono fun p hp => ?_
  rcases hp with (rfl | ⟨j, rfl⟩) | rfl <;> simp [writes]

theorem unchanged_execBnext (h : execBnext s = .next u) : Unchanged (writes .bnext s) s u := by
  cases h
  refine (((unchanged_noteRead s _).trans (unchanged_setT _ _)).trans (unchanged_setUpc _ _)).mono fun p hp => ?_
  have ht : s.t.toNat < 2 ^ 56 := s.t.isLt
  rcases hp with (rfl | rfl | ⟨rfl, hk⟩) | rfl
  case inl.inr.inr => exact .inr (.inr (.inr ⟨rfl, Nat.le_antisymm ht hk⟩))
  all_goals simp [writes]

theorem unchanged_execSer {j : BitVec 6} (h : execSer j s = .next u) : Unchanged (writes (.ser j) s) s u := by
  rcases execSer_next h with ⟨hj, rfl⟩ | ⟨hj, rfl⟩
  · exact (unchanged_raiseFatal s _).mono fun p hp => by simpa [writes, Nat.not_le.2 hj] using hp
  · refine (((unchanged_noteRead s _).trans (unchanged_stored _ (digestOffset j) _)).trans
      (unchanged_advance _)).mono fun p hp => ?_
    rcases hp with (rfl | ⟨k, rfl, hk⟩) | rfl
    case inl.inr => simpa [writes, Nat.le_of_lt_succ hj, bytes32] using hk
    all_goals simp [writes, Nat.le_of_lt_succ hj]

theorem unchanged_execFin (h : execFin s = .next u) : Unchanged (writes .fin s) s u := by
  cases h
  refine (((unchanged_discardLen s).trans (unchanged_discardWork _)).trans (unchanged_finished _)).mono fun p hp => ?_
  rcases hp with (rfl | rfl | rfl | rfl | rfl | hp) | rfl
  case inl.inr.inr.inr.inr.inr => simp [writes, hp]
  all_goals simp [writes]

/-- Settles O47, operation by operation. -/
theorem operationsWriteOnlyTheirPieces : Obligations.OperationsWriteOnlyTheirPieces := by
  intro i s u h
  cases i with
  | pad => exact unchanged_execPad h
  | bchk => exact unchanged_execBchk h
  | hinit => exact unchanged_execHinit h
  | wld j => exact unchanged_execWld h
  | wexp k => exact unchanged_execWexp h
  | vinit => exact unchanged_execVinit h
  | rnd k => exact unchanged_execRnd h
  | hadd => exact unchanged_execHadd h
  | bnext => exact unchanged_execBnext h
  | ser j => exact unchanged_execSer h
  | fin => exact unchanged_execFin h

end Sys2Proof.Safety
end

section
/-! What every step keeps: the phase by its table (R32), the digest in `DONE` (R28), the control store (R62, R230). -/

namespace Sys2Proof.Safety

open Sys2Proof.Machine

variable {s u : State} {i : Instr}

/-- The patches of the control store stand in no operation's Writes line. -/
theorem not_writes_csPatch (i : Instr) (s : State) : ¬ writes i s .csPatch := by
  cases i <;> simp [writes, fatalWrites]

/-- No operation writes the control store. -/
theorem exec_csPatch (h : exec i s = .next u) : u.csPatch = s.csPatch :=
  operationsWriteOnlyTheirPieces i s u h .csPatch (not_writes_csPatch i s)

/-- `PHASE` after an operation: as before, unless it is `FIN`, a raise of `BCHK`, or has no operation word (R32, R201). -/
theorem exec_phase (h : exec i s = .next u) :
    u.phase = s.phase ∨ (i = .fin ∧ u.phase = .done) ∨ (i.wellFormed = false ∧ u.phase = .fatal) ∨
      (i = .bchk ∧ u.phase = .fatal ∧ u.fcause = .paddedLengthNotBlockMultiple ∧ s.plen.toNat % 64 ≠ 0) := by
  cases i with
  | pad => obtain ⟨msg, -, rfl⟩ := execPad_next h; exact .inl rfl
  | bchk =>
    rcases execBchk_next h with ⟨hm, rfl⟩ | ⟨-, rfl⟩
    · exact .inr (.inr (.inr ⟨rfl, rfl, rfl, hm⟩))
    · exact .inl rfl
  | wld j =>
    rcases execWld_next h with ⟨hj, rfl⟩ | ⟨-, b0, b1, b2, b3, -, rfl⟩
    · exact .inr (.inr (.inl ⟨decide_eq_false (Nat.not_le.2 hj), rfl⟩))
    · exact .inl rfl
  | wexp k =>
    rcases execWexp_next h with ⟨hk, rfl⟩ | ⟨-, rfl⟩
    · exact .inr (.inr (.inl ⟨decide_eq_false (Nat.not_le.2 hk), rfl⟩))
    · exact .inl rfl
  | ser j =>
    rcases execSer_next h with ⟨hj, rfl⟩ | ⟨-, rfl⟩
    · exact .inr (.inr (.inl ⟨decide_eq_false (Nat.not_le.2 hj), rfl⟩))
    · exact .inl rfl
  | bnext => cases h; exact .inl (State.setT_phase _ _)
  | fin => cases h; exact .inr (.inl ⟨rfl, rfl⟩)
  | hinit | vinit | rnd k | hadd => cases h; exact .inl rfl

/-- A step is the core's, an accepted START, ABORT or reset, a read of the host, or its write of the message. -/
theorem step_next (h : step s = .next u) : ∃ rest,
    coreStep { s with moves := rest } = .next u ∨
    (∃ msg len, s.moves = .start msg len :: rest ∧ hostStart Config.LMAX msg len { s with moves := rest } = .next u) ∨
    ((s.moves = .abort :: rest ∨ s.moves = .reset :: rest) ∧ u = State.coreReset { s with moves := rest }) ∨
    (∃ x, u = { s with moves := rest, seen := x :: s.seen }) ∨
    (s.phase ≠ .run ∧ ∃ msg, u = { s with moves := rest, msg := Memory.ofBytes 0 msg }) := by
  rcases step_cases s with ⟨hm, hs⟩ | ⟨m, rest, hm, hs⟩
  · rw [hs] at h
    exact ⟨s.moves, .inl h⟩
  · rw [hs] at h
    refine ⟨rest, ?_⟩
    cases m with
    | wait => exact .inl h
    | start msg len => exact .inr (.inl ⟨msg, len, hm, h⟩)
    | abort => cases h; exact .inr (.inr (.inl ⟨.inl hm, rfl⟩))
    | reset => cases h; exact .inr (.inr (.inl ⟨.inr hm, rfl⟩))
    | readStatus => cases h; exact .inr (.inr (.inr (.inl ⟨_, rfl⟩)))
    | readDigest =>
      obtain ⟨-, bytes, -, rfl⟩ := hostReadDigest_next h
      exact .inr (.inr (.inr (.inl ⟨_, rfl⟩)))
    | writeMsg msg =>
      obtain ⟨hp, rfl⟩ := hostWriteMsg_next h
      exact .inr (.inr (.inr (.inr ⟨hp, msg, rfl⟩)))

/-- No step of the core writes the control store. -/
theorem coreStep_csPatch (h : coreStep s = .next u) : u.csPatch = s.csPatch := by
  rcases coreStep_next h with ⟨-, rfl⟩ | ⟨-, w, -, ⟨i, -, hx⟩ | ⟨-, rfl⟩⟩
  · rfl
  · exact (exec_csPatch hx :)
  · rfl

/-- No step, of the core or of the outside, writes the control store. -/
theorem step_csPatch (h : step s = .next u) : u.csPatch = s.csPatch := by
  obtain ⟨rest, hc | ⟨msg, len, -, hs⟩ | ⟨-, rfl⟩ | ⟨x, rfl⟩ | ⟨-, msg, rfl⟩⟩ := step_next h
  · exact (coreStep_csPatch hc :)
  · obtain ⟨-, -, -, rfl⟩ := hostStart_next hs
    rfl
  all_goals rfl

/-- Settles O46: the fetch looks only at `upc` and at the patches, which no step writes. -/
theorem controlStoreIsNeverWritten : Obligations.ControlStoreIsNeverWritten := by
  intro s u h
  have hpatch := step_csPatch h
  exact ⟨hpatch, fun a => by simp only [fetch, hpatch]⟩

/-- Settles O45: in `DONE` the core waits, and the host's reads and its write leave `DIGEST`. -/
theorem digestIsFinalInDone : Obligations.DigestIsFinalInDone := by
  intro s u hp h
  obtain ⟨rest, hc | ⟨msg, len, hm, -⟩ | ⟨hm, -⟩ | ⟨x, rfl⟩ | ⟨-, msg, rfl⟩⟩ := step_next h
  · rcases coreStep_next hc with ⟨-, rfl⟩ | ⟨hrun, -⟩
    · exact .inr ⟨hp, fun _ => rfl⟩
    · cases hp.symm.trans hrun
  · exact .inl ⟨msg, len, rest, .inl hm⟩
  · exact .inl ⟨[], 0, rest, .inr hm⟩
  · exact .inr ⟨hp, fun _ => rfl⟩
  · exact .inr ⟨hp, fun _ => rfl⟩

/-- `PHASE` after a step of the core that changes it: by `FIN`, or by a raise of the decode or of `BCHK` (R32, R201). -/
theorem coreStep_phase (h : coreStep s = .next u) (hne : u.phase ≠ s.phase) :
    s.phase = .run ∧ ∃ w, fetch s = some w ∧
      ((u.phase = .done ∧ decode w = some .fin) ∨
       (u.phase = .fatal ∧ ((decode w = none ∧ u.fcause = .reservedOperationWord) ∨
        (decode w = some .bchk ∧ u.fcause = .paddedLengthNotBlockMultiple ∧ s.plen.toNat % 64 ≠ 0)))) := by
  rcases coreStep_next h with ⟨-, rfl⟩ | ⟨hp, w, hw, ⟨i, hi, hx⟩ | ⟨hw', rfl⟩⟩
  · exact absurd rfl hne
  · refine ⟨hp, w, hw, ?_⟩
    rcases exec_phase hx with heq | ⟨rfl, hd⟩ | ⟨hwf, -⟩ | ⟨rfl, hf, hcause, hm⟩
    · exact absurd heq hne
    · exact .inl ⟨hd, hi⟩
    · rw [decode_wellFormed hi] at hwf
      cases hwf
    · exact .inr ⟨hf, .inr ⟨hi, hcause, hm⟩⟩
  · exact ⟨hp, w, hw, .inr ⟨rfl, .inl ⟨hw', rfl⟩⟩⟩

/-- Settles O43: the core's step changes `PHASE` only to `DONE` or `FATAL`, START only to `RUN`, ABORT and reset only to
`IDLE`, and the host's reads and its write not at all. -/
theorem phaseChangesAsTabled : Obligations.PhaseChangesAsTabled := by
  refine ⟨⟨rfl, rfl, rfl, rfl⟩, fun s u h hne => ?_⟩
  obtain ⟨rest, hc | ⟨msg, len, hm, hs⟩ | ⟨hm, rfl⟩ | ⟨x, rfl⟩ | ⟨-, msg, rfl⟩⟩ := step_next h
  · obtain ⟨hp, w, hw, ⟨hd, hfin⟩ | ⟨hf, hcause⟩⟩ := coreStep_phase hc hne
    · simp only [hd, reduceCtorEq, false_implies, true_and, and_true, forall_const]
      exact ⟨hp, w, hw, hfin⟩
    · simp only [hf, reduceCtorEq, false_implies, true_and, forall_const]
      exact ⟨hp, w, hw, hcause⟩
  · obtain ⟨hp, -, -, rfl⟩ := hostStart_next hs
    simp only [reduceCtorEq, false_implies, true_and, and_true, forall_const]
    exact ⟨(Phase.takesStart_iff _).1 hp, msg, len, rest, hm⟩
  · simp only [State.coreReset_phase, reduceCtorEq, false_implies, and_true, forall_const]
    exact ⟨rest, hm⟩
  · exact absurd rfl hne
  · exact absurd rfl hne

end Sys2Proof.Safety
end

section
/-! The states of a correct core (R35, R36): what the operation at each address of the control store needs is there, and
it supplies what the addresses after it need. -/

namespace Sys2Proof.Safety

open Sys2Proof.Machine

variable {s u : State}

/-! What is fetched. -/

/-- What is decoded at `upc` in a correct core is the operation of that address, with a legal index. -/
theorem fetched_at_address {w : OpWord} {i : Instr} (hp : s.csPatch = []) (ha : s.upc.toNat ≤ 142)
    (hw : fetch s = some w) (hi : decode w = some i) : s.upc.toNat = address i ∧ i.wellFormed = true := by
  refine ⟨address_of_opAt ha ?_, decode_wellFormed hi⟩
  rw [← decode_CS _ ha, ← fetch_of_intact s hp, hw]
  exact hi

/-! What each operation supplies. -/

/-- The registers and bytes that PAD and BCHK write are the same. -/
structure SameBlocks (s u : State) : Prop where
  len : u.len = s.len
  plen : u.plen = s.plen
  n : u.n = s.n
  t : u.t = s.t
  msg : u.msg = s.msg
  pb : u.pb = s.pb
  len_held : u.held.len = s.held.len
  plen_held : u.held.plen = s.held.plen
  n_held : u.held.n = s.held.n
  t_held : u.held.t = s.held.t

/-- An operation after BCHK other than BNEXT and FIN, which leaves the blocks as they are, owes only what it computes. -/
theorem Supplied.next (hs : Supplied s) (hb : SameBlocks s u) (hupc : u.upc.toNat = s.upc.toNat + 1)
    (hheld : u.held.upc = true) (hlo : 2 ≤ s.upc.toNat) (hhi : s.upc.toNat ≤ 141) (hloop : s.upc.toNat ≠ 133)
    (hash : 3 ≤ u.upc.toNat → u.held.h = true)
    (schedule : ∀ i : Fin 64, 3 + i.val < u.upc.toNat → u.held.w[i] = true)
    (working : 68 ≤ u.upc.toNat → u.held.v = true)
    (serialized : ∀ k, k < 32 → k + 4 * 134 < 4 * u.upc.toNat → (u.digest.read k).isSome = true) : Supplied u where
  upc_le := by omega
  upc_held := hheld
  len_held := by rw [hb.len_held]; exact hs.len_held
  message := by rw [hb.len, hb.msg]; exact hs.message
  padded _ := by rw [hb.plen_held, hb.plen, hb.len, hb.pb]; exact hs.padded (by omega)
  blocks _ := by rw [hb.n_held, hb.t_held, hb.n, hb.plen]; exact hs.blocks hlo
  inLoop _ _ := by rw [hb.t, hb.n]; exact hs.inLoop hlo (by omega)
  afterLoop _ := by rw [hb.t, hb.n]; exact hs.afterLoop (by omega)
  hash := hash
  schedule := schedule
  working := working
  serialized := serialized

/-- What an operation of a correct core that goes on in `RUN` leaves: everything the next one reads, and no read of no
value noted. -/
structure GoesOn (s u : State) : Prop where
  phase : u.phase = s.phase
  fcause : u.fcause = s.fcause
  clean : u.noValueRead = s.noValueRead
  supplied : Supplied u

theorem Supplied.upc_advance (hs : Supplied s) : (upcAfter s.upc).toNat = s.upc.toNat + 1 :=
  upcAfter_toNat (by have := hs.upc_le; omega)

theorem goesOn_pad (hs : Supplied s) (ha : s.upc.toNat = 0) (h : execPad s = .next u) : GoesOn s u := by
  obtain ⟨msg, hmsg, rfl⟩ := execPad_next h
  have hlen := ((Memory.readBytes_eq_some ..).1 hmsg).1
  have hupc := hs.upc_advance
  rw [hs.len_held, State.noteRead_true]
  refine ⟨rfl, rfl, rfl, ?_⟩
  constructor <;> simp only [State.advance_upc, hupc, ha]
  case padded =>
    intro _
    refine ⟨rfl, ofNat_paddedLength_toNat _, fun k => ?_⟩
    rw [State.advance_pb, isSome_read_ofBytes, length_pad, hlen, State.advance_plen, ofNat_paddedLength_toNat]
  case upc_held => rfl
  case len_held => exact hs.len_held
  case message => exact hs.message
  all_goals omega

theorem goesOn_bchk (hs : Supplied s) (ha : s.upc.toNat = 1) (h : execBchk s = .next u) : GoesOn s u := by
  obtain ⟨hheld, hplen, hpb⟩ := hs.padded (by omega)
  have hmod := paddedLength_mod_64 s.len.toNat
  have hge := (paddedLength_bounds s.len.toNat).1
  have hlt := s.plen.isLt
  have hupc := hs.upc_advance
  rw [← hplen] at hmod hge
  have hn : (BitVec.ofNat 56 (s.plen.toNat / 64)).toNat = s.plen.toNat / 64 := by
    rw [BitVec.toNat_ofNat, Nat.mod_eq_of_lt (by omega)]
  rcases execBchk_next h with ⟨hm, -⟩ | ⟨-, rfl⟩
  · exact absurd hmod hm
  rw [hheld, State.noteRead_true]
  refine ⟨rfl, rfl, rfl, ?_⟩
  constructor <;> simp only [State.advance_upc, hupc, ha]
  case padded => exact fun _ => ⟨hheld, hplen, hpb⟩
  case blocks =>
    refine fun _ => ⟨rfl, rfl, ?_⟩
    rw [State.advance_n, hn]
    change 64 * (s.plen.toNat / 64) = s.plen.toNat
    omega
  case inLoop =>
    intro _ _
    rw [State.advance_n, hn]
    change 0 < s.plen.toNat / 64
    omega
  case upc_held => rfl
  case len_held => exact hs.len_held
  case message => exact hs.message
  all_goals omega

theorem goesOn_hinit (hs : Supplied s) (ha : s.upc.toNat = 2) (h : execHinit s = .next u) : GoesOn s u := by
  cases h
  have hupc := hs.upc_advance
  refine ⟨rfl, rfl, rfl, hs.next (by constructor <;> rfl) hupc rfl (by omega) (by omega) (by omega) (fun _ => rfl)
    ?_ ?_ ?_⟩ <;> simp only [State.advance_upc, State.setH_upc, hupc, ha] <;> omega

/-- After `W[i]` is written at address `3 + i`, all the words up to it hold a value. -/
theorem Supplied.schedule_setW (hs : Supplied s) {i : BitVec 6} (ha : s.upc.toNat = 3 + i.toNat) (k : Fin 64)
    (hk : 3 + k.val < s.upc.toNat + 1) : (s.held.w.set i.toNat true i.isLt)[k] = true := by
  by_cases hki : i.toNat = k.val
  · simp [hki]
  · simpa [hki] using hs.schedule k (by omega)

/-- An operation at address `3 + i` that writes `W[i]` and nothing else goes on. -/
theorem goesOn_setW (hs : Supplied s) {i : BitVec 6} (ha : s.upc.toNat = 3 + i.toNat) (x : Word) :
    GoesOn s (s.setW i x).advance := by
  have hi := i.isLt
  have hupc := hs.upc_advance
  refine ⟨rfl, rfl, rfl, hs.next (by constructor <;> rfl) hupc rfl (by omega) (by omega) (by omega)
    (fun _ => hs.hash (by omega)) (fun k hk => hs.schedule_setW ha k (hupc ▸ hk)) ?_ ?_⟩ <;>
    simp only [State.advance_upc, State.setW_upc, hupc, ha] <;> omega

theorem goesOn_wld {j : BitVec 6} (hs : Supplied s) (ha : s.upc.toNat = 3 + j.toNat) (hj : j.toNat ≤ 15)
    (h : execWld j s = .next u) : GoesOn s u := by
  rcases execWld_next h with ⟨hj', -⟩ | ⟨-, b0, b1, b2, b3, -, rfl⟩
  · omega
  · obtain ⟨-, ht, -⟩ := hs.blocks (by omega)
    rw [ht, State.noteRead_true]
    exact goesOn_setW hs ha _

/-- The four sources of `W[i]` hold a value at address `3 + i` (R123). -/
theorem Supplied.heldW_sub (hs : Supplied s) {i : BitVec 6} (ha : s.upc.toNat = 3 + i.toNat) {d : BitVec 6}
    (hd : 0 < d.toNat) (hdi : d.toNat ≤ i.toNat) : s.heldW (i - d) = true := by
  have hsub : (i - d).toNat = i.toNat - d.toNat := BitVec.toNat_sub_of_le hdi
  exact hs.schedule (i - d).toFin (by simp only [BitVec.val_toFin]; omega)

theorem goesOn_wexp {i : BitVec 6} (hs : Supplied s) (ha : s.upc.toNat = 3 + i.toNat) (hi : 16 ≤ i.toNat)
    (h : execWexp i s = .next u) : GoesOn s u := by
  rcases execWexp_next h with ⟨hi', -⟩ | ⟨-, rfl⟩
  · omega
  · have hsrc {d : BitVec 6} (hd : 0 < d.toNat) (hd16 : d.toNat ≤ 16) := hs.heldW_sub ha hd (hd16.trans hi)
    rw [hsrc (d := 2) (by decide) (by decide), hsrc (d := 7) (by decide) (by decide),
      hsrc (d := 15) (by decide) (by decide), hsrc (d := 16) (by decide) (by decide)]
    simp only [Bool.and_self, State.noteRead_true]
    exact goesOn_setW hs ha _

/-- From address 67 to 131 an operation that writes `V` and nothing else goes on. -/
theorem goesOn_setV (hs : Supplied s) (hlo : 67 ≤ s.upc.toNat) (hhi : s.upc.toNat ≤ 131) (x : Vector Word 8) :
    GoesOn s (s.setV x).advance := by
  have hupc := hs.upc_advance
  refine ⟨rfl, rfl, rfl, hs.next (by constructor <;> rfl) hupc rfl (by omega) (by omega) (by omega)
    (fun _ => hs.hash (by omega)) (fun k _ => hs.schedule k (by omega)) (fun _ => rfl) ?_⟩
  simp only [State.advance_upc, State.setV_upc, hupc]
  omega

theorem goesOn_vinit (hs : Supplied s) (ha : s.upc.toNat = 67) (h : execVinit s = .next u) : GoesOn s u := by
  cases h
  rw [hs.hash (by omega), State.noteRead_true]
  exact goesOn_setV hs (by omega) (by omega) _

theorem goesOn_rnd {i : BitVec 6} (hs : Supplied s) (ha : s.upc.toNat = 68 + i.toNat) (h : execRnd i s = .next u) :
    GoesOn s u := by
  cases h
  have hi := i.isLt
  have hw : s.heldW i = true := hs.schedule i.toFin (by simp only [BitVec.val_toFin]; omega)
  rw [hs.working (by omega), hw, Bool.and_self, State.noteRead_true]
  exact goesOn_setV hs (by omega) (by omega) _

theorem goesOn_hadd (hs : Supplied s) (ha : s.upc.toNat = 132) (h : execHadd s = .next u) : GoesOn s u := by
  cases h
  have hupc := hs.upc_advance
  rw [hs.hash (by omega), hs.working (by omega), Bool.and_self, State.noteRead_true]
  refine ⟨rfl, rfl, rfl, hs.next (by constructor <;> rfl) hupc rfl (by omega) (by omega) (by omega) (fun _ => rfl)
    (fun k _ => hs.schedule k (by omega)) (fun _ => hs.working (by omega)) ?_⟩
  simp only [State.advance_upc, State.setH_upc, hupc, ha]
  omega

theorem goesOn_ser {j : BitVec 6} (hs : Supplied s) (ha : s.upc.toNat = 134 + j.toNat) (hj : j.toNat ≤ 7)
    (h : execSer j s = .next u) : GoesOn s u := by
  rcases execSer_next h with ⟨hj', -⟩ | ⟨hj8, rfl⟩
  · omega
  have hupc := hs.upc_advance
  rw [hs.hash (by omega), State.noteRead_true]
  refine ⟨rfl, rfl, rfl, hs.next (by constructor <;> rfl) hupc rfl (by omega) (by omega) (by omega)
    (fun _ => hs.hash (by omega)) (fun k _ => hs.schedule k (by omega)) (fun _ => hs.working (by omega))
    fun k hk hlt => ?_⟩
  simp only [State.advance_upc, hupc] at hlt
  rw [State.advance_digest, Memory.read_writeBytes]
  split
  next hin =>
    simp only [bytes32, digestOffset, List.length_cons, List.length_nil] at hin
    have hoff : k - 4 * j.toNat < 4 := by omega
    simpa [bytes32, digestOffset] using hoff
  next hout =>
    simp only [digestOffset, bytes32, List.length_cons, List.length_nil] at hout
    exact hs.serialized k hk (by omega)

theorem goesOn_bnext (hs : Supplied s) (ha : s.upc.toNat = 133) (h : execBnext s = .next u) : GoesOn s u := by
  cases h
  obtain ⟨hn, ht, hblocks⟩ := hs.blocks (by omega)
  have hlt := hs.inLoop (by omega) (by omega)
  have hn56 := s.n.isLt
  have htn := State.setT_t_toNat s (tn := s.t.toNat + 1) (by omega)
  rw [hn, ht, Bool.and_self, State.noteRead_true]
  refine ⟨State.setT_phase .., State.setT_fcause .., State.setT_noValueRead .., ?_⟩
  have hupc : (if s.t.toNat + 1 < s.n.toNat then blockLoop else afterBlocks).toNat = 3 ∧ s.t.toNat + 1 < s.n.toNat ∨
      (if s.t.toNat + 1 < s.n.toNat then blockLoop else afterBlocks).toNat = 134 ∧ s.t.toNat + 1 = s.n.toNat := by
    by_cases hmore : s.t.toNat + 1 < s.n.toNat
    · exact .inl ⟨by rw [if_pos hmore]; rfl, hmore⟩
    · exact .inr ⟨by rw [if_neg hmore]; rfl, by omega⟩
  generalize (if s.t.toNat + 1 < s.n.toNat then blockLoop else afterBlocks) = a at hupc
  exact {
    upc_le := by rw [State.setUpc_upc]; omega
    upc_held := rfl
    len_held := by simpa using hs.len_held
    message := by simpa using hs.message
    padded := by simpa using fun _ => hs.padded (by omega)
    blocks := by simpa [hn] using fun _ => hblocks
    inLoop := by simp only [State.setUpc_upc, State.setUpc_t, State.setUpc_n, State.setT_n, htn]; omega
    afterLoop := fun h => BitVec.eq_of_toNat_eq (by
      simp only [State.setUpc_upc, State.setUpc_t, State.setUpc_n, State.setT_n, htn] at h ⊢; omega)
    hash := by simpa using fun _ => hs.hash (by omega)
    schedule := fun i _ => by simpa using hs.schedule i (by omega)
    working := by simpa using fun _ => hs.working (by omega)
    serialized := by rw [State.setUpc_upc]; omega }

theorem good_fin (g : Good s) (hs : Supplied s) (ha : s.upc.toNat = 142) (h : execFin s = .next u) : Good u := by
  cases h
  exact ⟨by simp, g.noCause, g.intact, g.clean, by simp, fun _ k hk => hs.serialized k hk (by omega)⟩

/-- An operation that goes on leaves a correct core. -/
theorem GoesOn.good (g : Good s) (hp : s.phase = .run) (hpatch : u.csPatch = s.csPatch) (h : GoesOn s u) : Good u where
  noFatal := by simp [h.phase, hp]
  noCause := h.fcause.trans g.noCause
  intact := hpatch.trans g.intact
  clean := h.clean.trans g.clean
  supplied _ := h.supplied
  published hd := by simp [h.phase, hp] at hd

/-- In a correct core the operation at `upc` leaves a correct core. -/
theorem good_exec {i : Instr} (g : Good s) (hp : s.phase = .run) (ha : s.upc.toNat = address i)
    (hwf : i.wellFormed = true) (h : exec i s = .next u) : Good u := by
  have hs := g.supplied hp
  have good : GoesOn s u → Good u := GoesOn.good g hp (exec_csPatch h)
  cases i with
  | pad => exact good (goesOn_pad hs ha h)
  | bchk => exact good (goesOn_bchk hs ha h)
  | hinit => exact good (goesOn_hinit hs ha h)
  | wld j => exact good (goesOn_wld hs ha (of_decide_eq_true hwf) h)
  | wexp k => exact good (goesOn_wexp hs ha (of_decide_eq_true hwf) h)
  | vinit => exact good (goesOn_vinit hs ha h)
  | rnd k => exact good (goesOn_rnd hs ha h)
  | hadd => exact good (goesOn_hadd hs ha h)
  | bnext => exact good (goesOn_bnext hs ha h)
  | ser j => exact good (goesOn_ser hs ha (of_decide_eq_true hwf) h)
  | fin => exact good_fin g hs ha h

/-- Every address of the control store has a word, and none is reserved (R79). -/
theorem decode_fetched {w : OpWord} (hp : s.csPatch = []) (ha : s.upc.toNat ≤ 142) (hw : fetch s = some w) :
    decode w ≠ none := by
  have hall : (List.range 143).all (fun a => (opAt a).isSome) = true := by decide +kernel
  have hrow := List.all_eq_true.1 hall s.upc.toNat (List.mem_range.2 (by omega))
  rw [← decode_CS _ ha, ← fetch_of_intact s hp, hw] at hrow
  exact Option.isSome_iff_ne_none.1 hrow

/-- The core's step leads from a correct core to a correct core. -/
theorem good_coreStep (g : Good s) (h : coreStep s = .next u) : Good u := by
  rcases coreStep_next h with ⟨-, rfl⟩ | ⟨hp, w, hw, hx⟩
  · exact g
  · have hs := g.supplied hp
    rw [hs.upc_held, State.noteRead_true] at hx
    rcases hx with ⟨i, hi, hx⟩ | ⟨hnone, -⟩
    · obtain ⟨ha, hwf⟩ := fetched_at_address g.intact hs.upc_le hw hi
      exact good_exec g hp ha hwf hx
    · exact absurd hnone (decode_fetched g.intact hs.upc_le hw)

/-! What the outside does. -/

/-- The outside's moves to come and what the host has seen have no part in `Supplied`. -/
theorem Supplied.outside (hs : Supplied s) (ms : List Move) (seen : List Seen) :
    Supplied { s with moves := ms, seen := seen } := by
  constructor
  case upc_le => exact hs.upc_le
  case upc_held => exact hs.upc_held
  case len_held => exact hs.len_held
  case message => exact hs.message
  case padded => exact hs.padded
  case blocks => exact hs.blocks
  case inLoop => exact hs.inLoop
  case afterLoop => exact hs.afterLoop
  case hash => exact hs.hash
  case schedule => exact hs.schedule
  case working => exact hs.working
  case serialized => exact hs.serialized

theorem Good.outside (g : Good s) (ms : List Move) (seen : List Seen) : Good { s with moves := ms, seen := seen } :=
  ⟨g.noFatal, g.noCause, g.intact, g.clean, fun hp => (g.supplied hp).outside ms seen, g.published⟩

/-- START supplies `LEN`, the message and `upc`, all that the operations from address 0 on read. -/
theorem good_hostStart {lmax : Config.Limit} {msg : List Byte} {len : Nat} (g : Good s)
    (h : hostStart lmax msg len s = .next u) : Good u := by
  obtain ⟨-, hmax, rfl, rfl⟩ := hostStart_next h
  refine ⟨by simp, rfl, g.intact, g.clean, fun _ => ?_, by simp⟩
  have hlen : (BitVec.ofNat 61 msg.length).toNat = msg.length := Nat.mod_eq_of_lt (hmax.trans_lt lmax.isLt)
  constructor
  case message => exact fun k hk => (isSome_read_ofBytes msg k).2 (hlen ▸ hk)
  all_goals simp

theorem good_coreReset (g : Good s) : Good s.coreReset :=
  ⟨by simp, rfl, g.intact, g.clean, by simp, by simp⟩

/-- Outside `RUN` the host may write its message. -/
theorem good_writeMsg (g : Good s) (hp : s.phase ≠ .run) (m : Memory) : Good { s with msg := m } :=
  ⟨g.noFatal, g.noCause, g.intact, g.clean, fun hrun => absurd hrun hp, g.published⟩

/-- Settles O51: the operation at each address finds what it reads, and the outside leaves a correct core. -/
theorem stepKeepsACorrectCore : Obligations.StepKeepsACorrectCore := by
  intro s u g h
  obtain ⟨rest, hc | ⟨msg, len, -, hs⟩ | ⟨-, rfl⟩ | ⟨x, rfl⟩ | ⟨hp, msg, rfl⟩⟩ := step_next h
  · exact good_coreStep (g.outside rest s.seen) hc
  · exact good_hostStart (g.outside rest s.seen) hs
  · exact good_coreReset (g.outside rest s.seen)
  · exact g.outside rest _
  · exact good_writeMsg (g.outside rest s.seen) hp _

/-- Settles O52. -/
theorem resetIsACorrectCore : Obligations.ResetIsACorrectCore :=
  ⟨by decide, rfl, rfl, rfl, (nomatch ·), (nomatch ·)⟩

end Sys2Proof.Safety
end

section
/-! What an operation writes depends only on what its rule says it reads (R51, R225, R226, R227). -/

namespace Sys2Proof.Safety

open Sys2Proof.Machine

variable {s₁ s₂ u₁ u₂ : State} {c d : Piece → Prop}

/-- The pieces in `c` are the same in both states. -/
def Agree (c : Piece → Prop) (s₁ s₂ : State) : Prop := ∀ p, c p → p.same s₁ s₂

/-- What every operation reads beside its rule's Reads line. -/
theorem Agree.model_fields {i : Instr} (h : Agree (reads i s₁) s₁ s₂) :
    (s₂.upc = s₁.upc ∧ s₂.held.upc = s₁.held.upc) ∧ s₂.noValueRead = s₁.noValueRead ∧ s₂.fresh = s₁.fresh :=
  ⟨h .upc (.inl rfl), h .noValueRead (.inr (.inl rfl)), h .fresh (.inr (.inr (.inl rfl)))⟩

/-- States that agree on the words of `H` have the same `H`. -/
theorem hash_eq (h : ∀ j, (Piece.h j).same s₁ s₂) : s₂.h = s₁.h ∧ s₂.held.h = s₁.held.h :=
  ⟨Vector.ext fun j hj => (h ⟨j, hj⟩).1, (h 0).2⟩

/-- States that agree on the words of `V` have the same `V`. -/
theorem working_eq (h : ∀ j, (Piece.v j).same s₁ s₂) : s₂.v = s₁.v ∧ s₂.held.v = s₁.held.v :=
  ⟨Vector.ext fun j hj => (h ⟨j, hj⟩).1, (h 0).2⟩

/-- States that agree on a word of `W` read it alike. -/
theorem getW_eq {i : BitVec 6} (h : (Piece.w i.toFin).same s₁ s₂) : s₂.getW i = s₁.getW i ∧ s₂.heldW i = s₁.heldW i :=
  h

theorem execPad_agree (h : Agree (reads .pad s₁) s₁ s₂) (h₁ : execPad s₁ = .next u₁) (h₂ : execPad s₂ = .next u₂) :
    Agree (writes .pad s₁) u₁ u₂ := by
  obtain ⟨⟨hupc, -⟩, hnote, -⟩ := h.model_fields
  obtain ⟨hlen, hheld⟩ : _ ∧ _ := h .len (.inr (.inr (.inr (.inl rfl))))
  have hmsg : s₂.msg.readBytes 0 s₁.len.toNat = s₁.msg.readBytes 0 s₁.len.toNat := readBytes_congr fun k _ hk =>
    h (.byte .msg k) (.inr (.inr (.inr (.inr ⟨k, rfl, by omega⟩))))
  obtain ⟨msg₁, hm₁, rfl⟩ := execPad_next h₁
  obtain ⟨msg₂, hm₂, rfl⟩ := execPad_next h₂
  obtain rfl : msg₂ = msg₁ := by
    rw [hlen, hmsg, hm₁] at hm₂
    exact (Option.some.inj hm₂).symm
  rintro p (rfl | rfl | rfl | ⟨a, rfl⟩) <;> simp [Piece.same, spaceOf, hupc, hnote, hlen, hheld]

theorem execBchk_agree (h : Agree (reads .bchk s₁) s₁ s₂) (h₁ : execBchk s₁ = .next u₁)
    (h₂ : execBchk s₂ = .next u₂) : Agree (writes .bchk s₁) u₁ u₂ := by
  obtain ⟨⟨hupc, -⟩, hnote, -⟩ := h.model_fields
  obtain ⟨hplen, hheld⟩ : _ ∧ _ := h .plen (.inr (.inr (.inr rfl)))
  rcases execBchk_next h₁ with ⟨hm₁, rfl⟩ | ⟨hm₁, rfl⟩ <;> rcases execBchk_next h₂ with ⟨hm₂, rfl⟩ | ⟨hm₂, rfl⟩
  · rintro p (rfl | hp)
    · simp [Piece.same, hnote, hheld]
    · rw [if_neg hm₁] at hp
      rcases hp with rfl | rfl <;> rfl
  · exact absurd (hplen ▸ hm₂) hm₁
  · exact absurd hm₁ (hplen ▸ hm₂)
  · rintro p (rfl | hp)
    · simp [Piece.same, hnote, hheld]
    · rw [if_pos hm₁] at hp
      rcases hp with rfl | rfl | rfl <;> simp [Piece.same, hupc, hplen]

theorem execHinit_agree (h : Agree (reads .hinit s₁) s₁ s₂) (h₁ : execHinit s₁ = .next u₁)
    (h₂ : execHinit s₂ = .next u₂) : Agree (writes .hinit s₁) u₁ u₂ := by
  obtain ⟨⟨hupc, -⟩, -, -⟩ := h.model_fields
  cases h₁
  cases h₂
  rintro p (rfl | ⟨j, rfl⟩) <;> simp [Piece.same, hupc]

/-- Two raises with one cause agree on what a raise writes. -/
theorem raiseFatal_agree (s₁ s₂ : State) (x : FCause) : Agree fatalWrites (s₁.raiseFatal x) (s₂.raiseFatal x) := by
  rintro p (rfl | rfl) <;> rfl

/-- Two writes of one word to `W[i]` agree on `W[i]`, on `upc` and on the record of reads of no value. -/
theorem setW_advance_agree {ok₁ ok₂ : Bool} {i : BitVec 6} {x₁ x₂ : Word} (hupc : s₂.upc = s₁.upc)
    (hnote : s₂.noValueRead = s₁.noValueRead) (hok : ok₂ = ok₁) (hx : x₂ = x₁) :
    Agree (fun p => p = .w i.toFin ∨ p = .upc ∨ p = .noValueRead)
      (((s₁.noteRead ok₁).setW i x₁).advance) (((s₂.noteRead ok₂).setW i x₂).advance) := by
  rintro p (rfl | rfl | rfl) <;> simp [Piece.same, hupc, hnote, hok, hx]

theorem execWld_agree {j : BitVec 6} (h : Agree (reads (.wld j) s₁) s₁ s₂) (h₁ : execWld j s₁ = .next u₁)
    (h₂ : execWld j s₂ = .next u₂) : Agree (writes (.wld j) s₁) u₁ u₂ := by
  obtain ⟨⟨hupc, -⟩, hnote, -⟩ := h.model_fields
  obtain ⟨ht, hheld⟩ : _ ∧ _ := h .t (.inr (.inr (.inr (.inl rfl))))
  have hpb : s₂.pb.readBytes (blockWordOffset s₁.t j) 4 = s₁.pb.readBytes (blockWordOffset s₁.t j) 4 :=
    readBytes_congr fun k hlo hhi => h (.byte .pb k) (.inr (.inr (.inr (.inr ⟨k, rfl, hlo, hhi⟩))))
  unfold writes
  rcases execWld_next h₁ with ⟨hj, rfl⟩ | ⟨hj, b0, b1, b2, b3, hb, rfl⟩ <;>
    rcases execWld_next h₂ with ⟨hj', rfl⟩ | ⟨hj', c0, c1, c2, c3, hc, rfl⟩
  · simpa only [if_neg (Nat.not_le.2 hj)] using raiseFatal_agree s₁ s₂ _
  · omega
  · omega
  · rw [ht, hpb, hb] at hc
    cases hc
    simpa only [if_pos hj] using setW_advance_agree hupc hnote hheld rfl

theorem execWexp_agree {i : BitVec 6} (h : Agree (reads (.wexp i) s₁) s₁ s₂) (h₁ : execWexp i s₁ = .next u₁)
    (h₂ : execWexp i s₂ = .next u₂) : Agree (writes (.wexp i) s₁) u₁ u₂ := by
  obtain ⟨⟨hupc, -⟩, hnote, -⟩ := h.model_fields
  obtain ⟨hw2, hheld2⟩ := getW_eq (h (.w (i - 2).toFin) (.inr (.inr (.inr (.inl rfl)))))
  obtain ⟨hw7, hheld7⟩ := getW_eq (h (.w (i - 7).toFin) (.inr (.inr (.inr (.inr (.inl rfl))))))
  obtain ⟨hw15, hheld15⟩ := getW_eq (h (.w (i - 15).toFin) (.inr (.inr (.inr (.inr (.inr (.inl rfl)))))))
  obtain ⟨hw16, hheld16⟩ := getW_eq (h (.w (i - 16).toFin) (.inr (.inr (.inr (.inr (.inr (.inr rfl)))))))
  unfold writes
  rcases execWexp_next h₁ with ⟨hi, rfl⟩ | ⟨hi, rfl⟩ <;> rcases execWexp_next h₂ with ⟨hi', rfl⟩ | ⟨hi', rfl⟩
  · simpa only [if_neg (Nat.not_le.2 hi)] using raiseFatal_agree s₁ s₂ _
  · omega
  · omega
  · simpa only [if_pos hi] using setW_advance_agree hupc hnote (by rw [hheld2, hheld7, hheld15, hheld16])
      (by rw [hw2, hw7, hw15, hw16])

/-- Two writes of one `V` agree on `V`, on `upc` and on the record of reads of no value. -/
theorem setV_advance_agree {ok₁ ok₂ : Bool} {x₁ x₂ : Vector Word 8} (hupc : s₂.upc = s₁.upc)
    (hnote : s₂.noValueRead = s₁.noValueRead) (hok : ok₂ = ok₁) (hx : x₂ = x₁) :
    Agree (fun p => p = .upc ∨ p = .noValueRead ∨ ∃ j, p = .v j)
      (((s₁.noteRead ok₁).setV x₁).advance) (((s₂.noteRead ok₂).setV x₂).advance) := by
  rintro p (rfl | rfl | ⟨j, rfl⟩) <;> simp [Piece.same, hupc, hnote, hok, hx]

theorem execVinit_agree (h : Agree (reads .vinit s₁) s₁ s₂) (h₁ : execVinit s₁ = .next u₁)
    (h₂ : execVinit s₂ = .next u₂) : Agree (writes .vinit s₁) u₁ u₂ := by
  obtain ⟨⟨hupc, -⟩, hnote, -⟩ := h.model_fields
  obtain ⟨hh, hheld⟩ := hash_eq fun j => h (.h j) (.inr (.inr (.inr ⟨j, rfl⟩)))
  cases h₁
  cases h₂
  exact setV_advance_agree hupc hnote hheld hh

theorem execRnd_agree {i : BitVec 6} (h : Agree (reads (.rnd i) s₁) s₁ s₂) (h₁ : execRnd i s₁ = .next u₁)
    (h₂ : execRnd i s₂ = .next u₂) : Agree (writes (.rnd i) s₁) u₁ u₂ := by
  obtain ⟨⟨hupc, -⟩, hnote, -⟩ := h.model_fields
  obtain ⟨hw, hwheld⟩ := getW_eq (h (.w i.toFin) (.inr (.inr (.inr (.inl rfl)))))
  obtain ⟨hv, hvheld⟩ := working_eq fun j => h (.v j) (.inr (.inr (.inr (.inr ⟨j, rfl⟩))))
  cases h₁
  cases h₂
  exact setV_advance_agree hupc hnote (by rw [hvheld, hwheld])
    (by rw [State.noteRead_v, State.noteRead_v, State.getW_noteRead, State.getW_noteRead, hv, hw])

theorem execHadd_agree (h : Agree (reads .hadd s₁) s₁ s₂) (h₁ : execHadd s₁ = .next u₁)
    (h₂ : execHadd s₂ = .next u₂) : Agree (writes .hadd s₁) u₁ u₂ := by
  obtain ⟨⟨hupc, -⟩, hnote, -⟩ := h.model_fields
  obtain ⟨hh, hhheld⟩ := hash_eq fun j => h (.h j) (.inr (.inr (.inr (.inl ⟨j, rfl⟩))))
  obtain ⟨hv, hvheld⟩ := working_eq fun j => h (.v j) (.inr (.inr (.inr (.inr ⟨j, rfl⟩))))
  cases h₁
  cases h₂
  rintro p (rfl | rfl | ⟨j, rfl⟩) <;> simp [Piece.same, hupc, hnote, hh, hhheld, hv, hvheld]

/-- Two writes of one `t`, with the same free value to come, agree on `t` and on the counter of free values. -/
theorem setT_agree {k₁ k₂ : Nat} (hfresh : s₂.fresh = s₁.fresh) (hk : k₂ = k₁) :
    (s₂.setT k₂).t = (s₁.setT k₁).t ∧ (s₂.setT k₂).fresh = (s₁.setT k₁).fresh := by
  subst hk
  by_cases hk : k₂ < 2 ^ 56
  · rw [State.setT_of_lt _ _ hk, State.setT_of_lt _ _ hk]
    exact ⟨rfl, hfresh⟩
  · rw [State.setT_of_not_lt _ _ hk, State.setT_of_not_lt _ _ hk]
    simp only [hfresh, and_self]

theorem execBnext_agree (h : Agree (reads .bnext s₁) s₁ s₂) (h₁ : execBnext s₁ = .next u₁)
    (h₂ : execBnext s₂ = .next u₂) : Agree (writes .bnext s₁) u₁ u₂ := by
  obtain ⟨-, hnote, hfresh⟩ := h.model_fields
  obtain ⟨ht, htheld⟩ : _ ∧ _ := h .t (.inr (.inr (.inr (.inl rfl))))
  obtain ⟨hn, hnheld⟩ : _ ∧ _ := h .n (.inr (.inr (.inr (.inr rfl))))
  have hcount : s₂.t.toNat + 1 = s₁.t.toNat + 1 := by rw [ht]
  cases h₁
  cases h₂
  obtain ⟨hsetT, hsetFresh⟩ := setT_agree (s₁ := s₁.noteRead _) (s₂ := s₂.noteRead _) hfresh hcount
  rintro p (rfl | rfl | rfl | ⟨rfl, -⟩)
  · exact ⟨hsetT, by simp⟩
  · by_cases hmore : s₁.t.toNat + 1 < s₁.n.toNat <;> simp [Piece.same, ht, hn, hmore]
  · simp [Piece.same, hnote, htheld, hnheld]
  · exact hsetFresh

theorem execSer_agree {j : BitVec 6} (h : Agree (reads (.ser j) s₁) s₁ s₂) (h₁ : execSer j s₁ = .next u₁)
    (h₂ : execSer j s₂ = .next u₂) : Agree (writes (.ser j) s₁) u₁ u₂ := by
  obtain ⟨⟨hupc, -⟩, hnote, -⟩ := h.model_fields
  unfold writes
  rcases execSer_next h₁ with ⟨hj, rfl⟩ | ⟨hj, rfl⟩ <;> rcases execSer_next h₂ with ⟨hj', rfl⟩ | ⟨hj', rfl⟩
  · simpa only [if_neg (Nat.not_le.2 hj)] using raiseFatal_agree s₁ s₂ _
  · omega
  · omega
  · obtain ⟨hh, hheld⟩ : _ ∧ _ := h (.h ⟨j.toNat, hj⟩) (.inr (.inr (.inr ⟨hj, rfl⟩)))
    simp only [if_pos (Nat.le_of_lt_succ hj)]
    rintro p (rfl | rfl | ⟨a, rfl, hlo, hhi⟩)
    · simp [Piece.same, hupc]
    · simp [Piece.same, hnote, hheld]
    · have hin : digestOffset j ≤ a ∧ a < digestOffset j + 4 := ⟨hlo, hhi⟩
      simp only [Fin.getElem_fin] at hh
      simp [Piece.same, spaceOf, Memory.read_writeBytes, bytes32, hin, hh]

theorem execFin_agree (h : Agree (reads .fin s₁) s₁ s₂) (h₁ : execFin s₁ = .next u₁)
    (h₂ : execFin s₂ = .next u₂) : Agree (writes .fin s₁) u₁ u₂ := by
  obtain ⟨-, -, hfresh⟩ := h.model_fields
  cases h₁
  cases h₂
  rintro p (rfl | rfl | rfl | rfl | rfl | rfl | ⟨j, rfl⟩ | ⟨j, rfl⟩ | ⟨k, rfl⟩ | ⟨a, rfl⟩) <;>
    simp [Piece.same, spaceOf, hfresh]

/-- Settles O48, operation by operation. -/
theorem operationsDependOnlyOnWhatTheyRead : Obligations.OperationsDependOnlyOnWhatTheyRead := by
  intro i s₁ s₂ u₁ u₂ h h₁ h₂
  cases i with
  | pad => exact execPad_agree h h₁ h₂
  | bchk => exact execBchk_agree h h₁ h₂
  | hinit => exact execHinit_agree h h₁ h₂
  | wld j => exact execWld_agree h h₁ h₂
  | wexp k => exact execWexp_agree h h₁ h₂
  | vinit => exact execVinit_agree h h₁ h₂
  | rnd k => exact execRnd_agree h h₁ h₂
  | hadd => exact execHadd_agree h h₁ h₂
  | bnext => exact execBnext_agree h h₁ h₂
  | ser j => exact execSer_agree h h₁ h₂
  | fin => exact execFin_agree h h₁ h₂

end Sys2Proof.Safety
end

section
/-! The constant tables (R23, R24, R25), and the accesses that stop (R33, R55). -/

namespace Sys2Proof.Machine

/-! `K` and `IV` as fractional parts of roots of primes. -/

/-- The primes below 312, the first 64 (R23). -/
def firstPrimes : List Nat :=
  [2, 3, 5, 7, 11, 13, 17, 19, 23, 29, 31, 37, 41, 43, 47, 53, 59, 61, 67, 71, 73, 79, 83, 89, 97, 101, 103, 107, 109,
   113, 127, 131, 137, 139, 149, 151, 157, 163, 167, 173, 179, 181, 191, 193, 197, 199, 211, 223, 227, 229, 233, 239,
   241, 251, 257, 263, 269, 271, 277, 281, 283, 293, 307, 311]

/-- Trial division below 312 finds these primes. -/
theorem trialDivision_eq_firstPrimes :
    ((List.range 312).filter fun p =>
      decide (2 ≤ p) && (List.range p).all fun d => decide (d < 2) || decide (p % d ≠ 0)) = firstPrimes := by
  decide +kernel

/-- `K[i]` is the fraction of the cube root of the `i`-th prime: with the root's whole part `c` it is the root scaled by
`2^32` and rounded down. -/
theorem K_is_cube_root_fraction : ∀ i, i < 64 → ∃ c, c < 8 ∧
    (c * 2 ^ 32 + (K (BitVec.ofNat 6 i)).toNat) ^ 3 ≤ firstPrimes.getD i 0 * 2 ^ 96 ∧
    firstPrimes.getD i 0 * 2 ^ 96 < (c * 2 ^ 32 + (K (BitVec.ofNat 6 i)).toNat + 1) ^ 3 := by
  decide +kernel

/-- `IV[j]` is the fraction of the square root of the `j`-th prime. -/
theorem IV_is_square_root_fraction : ∀ j : Fin 8, ∃ c, c < 8 ∧
    (c * 2 ^ 32 + IV[j].toNat) ^ 2 ≤ firstPrimes.getD j.val 0 * 2 ^ 64 ∧
    firstPrimes.getD j.val 0 * 2 ^ 64 < (c * 2 ^ 32 + IV[j].toNat + 1) ^ 2 := by
  decide +kernel

/-- Settles O6: the two tables against the primes that trial division finds. -/
theorem constantTablesAreRootsOfPrimes : Obligations.ConstantTablesAreRootsOfPrimes := by
  unfold Obligations.ConstantTablesAreRootsOfPrimes
  rw [trialDivision_eq_firstPrimes]
  exact ⟨rfl, K_is_cube_root_fraction, IV_is_square_root_fraction⟩

/-! The control store. -/

/-- Settles O10: each word decodes to its row of the listing, and the rows end at 142. -/
theorem controlStoreHoldsTheListing : Obligations.ControlStoreHoldsTheListing :=
  ⟨by simp [digestOps, compressOps, schedOps, serializeOps],
    fun a ha => (decode_CS a (Nat.le_of_lt_succ ha)).trans (opAt_eq_digestOps a ha),
    fun _ => CS_eq_none⟩

/-- Settles O13: with no patch the fetch finds no word there. -/
theorem noControlWordOutsideTheStore : Obligations.NoControlWordOutsideTheStore := by
  intro s hrun hmoves hpatch hupc
  have hfetch : fetch s = none := (fetch_of_intact s hpatch).trans (CS_eq_none hupc)
  rw [step, stepWith_nil _ hmoves]
  simp only [coreStep, hrun, hfetch]

/-! Reset. -/

/-- Settles O37: every mark is false, and with no patch the fetch reads the table. -/
theorem resetLeavesNoValue : Obligations.ResetLeavesNoValue := by
  refine ⟨⟨rfl, rfl, rfl, fun _ => rfl, fun _ => rfl⟩, rfl, rfl, rfl, rfl, rfl, rfl, rfl, rfl, rfl, ?_, ?_⟩
  · exact fun i => Vector.getElem_replicate i.isLt
  · exact fun a => fetch_of_intact _ rfl

/-- Settles O50: the byte spaces and the patches are empty. -/
theorem resetIsCanonical : Obligations.ResetIsCanonical := ⟨rfl, rfl, rfl, rfl⟩

/-! Bytes that are not there. -/

/-- Settles O55: the read of PAD, and that of WLD, answers nothing. -/
theorem missingByteStopsTheOperation : Obligations.MissingByteStopsTheOperation := by
  refine ⟨fun s k hk hnone => ?_, fun s j k hj hk hnone => ?_⟩
  · have hread : s.msg.readBytes 0 s.len.toNat = none := readBytes_eq_none hk (by rwa [Nat.zero_add])
    simp only [exec, execPad, hread]
  · have hread : s.pb.readBytes (blockWordOffset s.t j) 4 = none := readBytes_eq_none hk hnone
    simp only [exec, execWld, if_pos hj, hread]
    rfl

end Sys2Proof.Machine
end

section
/-! The canonical form of the byte spaces and of the patches, which every step keeps (R50, R51). -/

namespace Sys2Proof.Safety

open Sys2Proof.Machine

variable {s u : State} {i : Instr}

/-- Only `PAD`, `SER` and `FIN` write a byte space: `PAD` a whole `PB`, `SER` bytes of `DIGEST`, and `FIN` empties `PB`. -/
theorem canonical_exec (hc : Canonical s) (h : exec i s = .next u) : Canonical u := by
  have ⟨hmsg, hpb, hdigest, hpatch⟩ := hc
  cases i with
  | pad =>
    obtain ⟨msg, -, rfl⟩ := execPad_next h
    exact ⟨hmsg, Memory.wf_ofBytes (pad msg), hdigest, hpatch⟩
  | ser j =>
    rcases execSer_next h with ⟨-, rfl⟩ | ⟨-, rfl⟩
    · exact hc
    · exact ⟨hmsg, hpb, Memory.wf_writeBytes _ _ _ hdigest, hpatch⟩
  | fin => cases h; exact ⟨hmsg, rfl, hdigest, hpatch⟩
  | bchk => rcases execBchk_next h with ⟨-, rfl⟩ | ⟨-, rfl⟩ <;> exact hc
  | wld j => rcases execWld_next h with ⟨-, rfl⟩ | ⟨-, b0, b1, b2, b3, -, rfl⟩ <;> exact hc
  | wexp k => rcases execWexp_next h with ⟨-, rfl⟩ | ⟨-, rfl⟩ <;> exact hc
  | bnext => cases h; simpa [Canonical] using hc
  | hinit | vinit | rnd k | hadd => cases h; exact hc

/-- Recording a read and raising Fatal(2) leave the spaces, and the operation at `upc` keeps the form. -/
theorem canonical_coreStep (hc : Canonical s) (h : coreStep s = .next u) : Canonical u := by
  rcases coreStep_next h with ⟨-, rfl⟩ | ⟨-, w, -, ⟨i, -, hx⟩ | ⟨-, rfl⟩⟩
  · exact hc
  · exact canonical_exec (s := s.noteRead s.held.upc) hc hx
  · exact hc

/-- Settles O49: START and the host's write put a whole message into `MSG`, reset and START empty the spaces of the core,
and the core's step keeps the form. -/
theorem stepKeepsTheCanonicalForm : Obligations.StepKeepsTheCanonicalForm := by
  intro s u hc h
  have ⟨hmsg, hpb, hdigest, hpatch⟩ := hc
  obtain ⟨rest, hx | ⟨msg, len, -, hs⟩ | ⟨-, rfl⟩ | ⟨x, rfl⟩ | ⟨-, msg, rfl⟩⟩ := step_next h
  · exact canonical_coreStep (s := { s with moves := rest }) hc hx
  · obtain ⟨-, -, -, rfl⟩ := hostStart_next hs
    exact ⟨Memory.wf_ofBytes msg, rfl, rfl, hpatch⟩
  · exact ⟨hmsg, rfl, rfl, hpatch⟩
  · exact hc
  · exact ⟨Memory.wf_ofBytes msg, hpb, hdigest, hpatch⟩

end Sys2Proof.Safety
end

section
/-! Progress of a correct core (R188, R240): the control store has an operation at `upc`, every byte that it reads is
there (R55), and so no step stops. -/

namespace Sys2Proof.Safety

open Sys2Proof.Machine

variable {s : State} {i : Instr}

/-- The listing has an operation at every address up to 142 (R79), and the fetch finds its word. -/
theorem exists_fetched (hp : s.csPatch = []) (ha : s.upc.toNat ≤ 142) :
    ∃ w i, fetch s = some w ∧ decode w = some i := by
  obtain ⟨hlen, hrow, -⟩ := controlStoreHoldsTheListing
  have hdecoded : (fetch s).bind decode = (digestOps 1)[s.upc.toNat]? := by
    rw [fetch_of_intact s hp]
    exact hrow _ (by omega)
  rw [List.getElem?_eq_getElem (by omega)] at hdecoded
  obtain ⟨w, hw, hi⟩ := Option.bind_eq_some_iff.1 hdecoded
  exact ⟨w, _, hw, hi⟩

/-- `PAD` finds the whole message. -/
theorem exists_execPad (hs : Supplied s) : ∃ u, execPad s = .next u := by
  obtain ⟨msg, hmsg, -⟩ := Memory.readBytes_isSome s.msg 0 s.len.toNat fun k hk => by
    rw [Nat.zero_add]
    exact hs.message k hk
  simp only [execPad, hmsg]
  exact ⟨_, rfl⟩

/-- `WLD j` finds its four bytes: they lie in block `t` of the `N` blocks of `PB` (R110, R122). -/
theorem exists_execWld {j : BitVec 6} (hs : Supplied s) (ha : s.upc.toNat = 3 + j.toNat) (hj : j.toNat ≤ 15) :
    ∃ u, execWld j s = .next u := by
  obtain ⟨-, -, hpb⟩ := hs.padded (by omega)
  obtain ⟨-, -, hblocks⟩ := hs.blocks (by omega)
  have ht := hs.inLoop (by omega) (by omega)
  obtain ⟨bytes, hread, hlen⟩ := Memory.readBytes_isSome s.pb (blockWordOffset s.t j) 4 fun k hk => by
    rw [hpb, blockWordOffset]
    omega
  obtain ⟨b0, b1, b2, b3, rfl⟩ := List.length_eq_four.1 hlen
  simp only [execWld, if_pos hj, hread]
  exact ⟨_, rfl⟩

/-- The operation at `upc` answers a next state where everything it reads has been supplied. -/
theorem exists_exec (hs : Supplied s) (ha : s.upc.toNat = address i) (hwf : i.wellFormed = true) :
    ∃ u, exec i s = .next u := by
  cases i with
  | pad => exact exists_execPad hs
  | wld j => exact exists_execWld hs ha (of_decide_eq_true hwf)
  | wexp k => exact ⟨_, if_pos (of_decide_eq_true hwf)⟩
  | ser j => exact ⟨_, dif_pos (Nat.lt_succ_of_le (of_decide_eq_true hwf))⟩
  | bchk | hinit | vinit | rnd k | hadd | bnext | fin => exact ⟨_, rfl⟩

/-- The core's step of a correct core answers a next state. -/
theorem exists_coreStep (g : Good s) : ∃ u, coreStep s = .next u := by
  cases hp : s.phase with
  | run =>
    have hs := g.supplied hp
    obtain ⟨w, i, hw, hi⟩ := exists_fetched g.intact hs.upc_le
    obtain ⟨ha, hwf⟩ := fetched_at_address g.intact hs.upc_le hw hi
    simp only [coreStep, hp, hw, runWord, hi, hs.upc_held, State.noteRead_true]
    exact exists_exec hs ha hwf
  | idle | done | fatal => exact ⟨s, by simp only [coreStep, hp]⟩

/-- START goes on or is refused; it never stops with a fault (R180, R202). -/
theorem hostStart_ne_fault (lmax : Config.Limit) (msg : List Byte) (len : Nat) (s : State) (f : Fault) :
    hostStart lmax msg len s ≠ .fault f := by
  unfold hostStart
  split
  · split <;> nofun
  · nofun

/-- In a correct core the digest read finds the 32 bytes, or is refused (R186 (b)). -/
theorem hostReadDigest_ne_fault (g : Good s) (f : Fault) : hostReadDigest s ≠ .fault f := by
  unfold hostReadDigest
  split
  next hp =>
    obtain ⟨bytes, hread, -⟩ := Memory.readBytes_isSome s.digest 0 32 fun k hk => by
      rw [Nat.zero_add]
      exact g.published hp k hk
    rw [hread]
    nofun
  next => nofun

/-- The host's write of its message goes on or is refused (R187 (b)). -/
theorem hostWriteMsg_ne_fault (msg : List Byte) (s : State) (f : Fault) : hostWriteMsg msg s ≠ .fault f := by
  unfold hostWriteMsg
  split <;> nofun

theorem coreStep_ne_fault (g : Good s) (f : Fault) : coreStep s ≠ .fault f := by
  obtain ⟨u, hu⟩ := exists_coreStep g
  rw [hu]
  nofun

/-- No move of the outside stops a correct core with a fault. -/
theorem outsideMove_ne_fault (lmax : Config.Limit) (m : Move) (g : Good s) (f : Fault) :
    outsideMove lmax m s ≠ .fault f := by
  cases m with
  | wait => exact coreStep_ne_fault g f
  | start msg len => exact hostStart_ne_fault lmax msg len s f
  | readDigest => exact hostReadDigest_ne_fault g f
  | writeMsg msg => exact hostWriteMsg_ne_fault msg s f
  | abort | reset | readStatus => nofun

/-- Settles O53: the core's step finds what it reads, and no move of the outside faults. -/
theorem correctCoreAlwaysSteps : Obligations.CorrectCoreAlwaysSteps := by
  refine fun s g => ⟨fun f => ?_, fun hm => ?_⟩
  · rcases step_cases s with ⟨-, hs⟩ | ⟨m, rest, -, hs⟩
    · rw [hs]
      exact coreStep_ne_fault g f
    · rw [hs]
      exact outsideMove_ne_fault Config.LMAX m (g.outside rest s.seen) f
  · rw [step, stepWith_nil _ hm]
    exact exists_coreStep g

end Sys2Proof.Safety
end

section
/-! Operation words (R76, R77, R80): the decoder and the encoder are inverse, and the reserved words are the ones outside
the opcode map. -/

namespace Sys2Proof

/-- An operation word is its two fields side by side (R76). -/
theorem OpWord.op_append_idx (w : OpWord) : OpWord.op w ++ OpWord.idx w = w := by
  ext k hk
  simp only [OpWord.op, OpWord.idx, BitVec.getElem_append, BitVec.getElem_extractLsb']
  split
  · rw [Nat.zero_add, BitVec.getLsbD_eq_getElem hk]
  · rw [Nat.add_sub_cancel' (by omega), BitVec.getLsbD_eq_getElem hk]

/-! The opcode map. -/

/-- The row that an operation's code selects, applied to its index, is that operation (R77). -/
theorem opRow_opcode_index (i : Instr) : opRow i.opcode i.index = some i := by
  cases i <;> rfl

/-- Each row is selected by its own code only (R77). -/
theorem opcode_of_opRow {op : BitVec 4} {idx : BitVec 6} {i : Instr} (h : opRow op idx = some i) : i.opcode = op := by
  unfold opRow at h
  split at h
  case h_12 => cases h
  all_goals
    rename_i hop
    cases h
    exact BitVec.eq_of_toNat_eq hop.symm

/-- The codes without a row are 0 and those from 12 on (R77). -/
theorem opRow_eq_none_iff {op : BitVec 4} {idx : BitVec 6} : opRow op idx = none ↔ op = 0b0000#4 ∨ 12 ≤ op.toNat := by
  rw [← BitVec.toNat_inj, BitVec.toNat_ofNat]
  unfold opRow
  split
  case h_12 => simp only [imp_false, true_iff] at *; omega
  all_goals simp only [reduceCtorEq, false_iff]; omega

/-! The decoder. -/

/-- The decoder answers the operation of the row that `op` selects, if that takes `idx` (R80). -/
theorem decode_eq_some_iff {w : OpWord} {i : Instr} :
    decode w = some i ↔ opRow (OpWord.op w) (OpWord.idx w) = some i ∧ i.wellFormed = true ∧ i.index = OpWord.idx w := by
  unfold decode
  cases opRow (OpWord.op w) (OpWord.idx w) with
  | none => simp
  | some k =>
    by_cases hk : k = i
    · subst hk; simp
    · simp [hk]

theorem decode_eq_none_iff {w : OpWord} :
    decode w = none ↔
      ∀ i, opRow (OpWord.op w) (OpWord.idx w) = some i → i.wellFormed = true → OpWord.idx w ≠ i.index := by
  simp only [Option.eq_none_iff_forall_ne_some, ne_eq, decode_eq_some_iff, not_and, eq_comm (a := OpWord.idx w)]

/-- Settles O7: the row that `op` selects has that `op` as its code, so the fields of the word are the operation's own. -/
theorem decodeIsTheInverseOfEncode : Obligations.DecodeIsTheInverseOfEncode := by
  intro w i
  rw [decode_eq_some_iff]
  constructor
  · rintro ⟨hrow, hwf, hidx⟩
    refine ⟨hwf, ?_⟩
    rw [encode, opcode_of_opRow hrow, hidx, OpWord.op_append_idx]
  · rintro ⟨hwf, rfl⟩
    obtain ⟨hop, hidx⟩ : Laws.WordFields.Statement i := Laws.fields_append _ _
    rw [hop, hidx]
    exact ⟨opRow_opcode_index i, hwf, rfl⟩

/-- Settles O8: where `op` has no row every `idx` is reserved; else row by row. The legal words are counted. -/
theorem reservedWordsAreThoseOutsideTheMap : Obligations.ReservedWordsAreThoseOutsideTheMap := by
  refine ⟨fun w => ?_, by decide +kernel⟩
  rw [decode_eq_none_iff]
  generalize OpWord.op w = op, OpWord.idx w = idx
  cases hrow : opRow op idx with
  | none => exact iff_of_true nofun (.inl (opRow_eq_none_iff.1 hrow))
  | some i =>
    obtain rfl := opcode_of_opRow hrow
    cases i with
    | wld j | wexp j | ser j =>
      cases hrow
      simp [Instr.opcode, Instr.index, Instr.wellFormed]
      omega
    | rnd j => cases hrow; simp [Instr.opcode, Instr.index, Instr.wellFormed]
    | pad | bchk | hinit | vinit | hadd | bnext | fin =>
      simp [Instr.opcode, Instr.index, Instr.wellFormed]

/-- Settles O9: seventeen words, decoded. -/
theorem specWordsDecode : Obligations.SpecWordsDecode := by
  unfold Obligations.SpecWordsDecode
  decide

end Sys2Proof
end

section
/-! The word at `upc` is what the next step runs (R181), and an operation without a word raises Fatal(2) (R80, R211). -/

namespace Sys2Proof.Machine

/-- In `RUN`, with no move of the outside, the step executes the operation fetched (R181). -/
theorem step_of_decoded {s : State} {w : OpWord} {i : Instr} (hp : s.phase = .run) (hm : s.moves = [])
    (hw : fetch s = some w) (hi : decode w = some i) : step s = exec i (s.noteRead s.held.upc) := by
  rw [step, stepWith_nil _ hm]
  simp only [coreStep, hp, hw, runWord, hi]

/-- The table's decoder answers where the word fits its bits and an operation word's ten (R76). -/
theorem decodeTableWord_eq_some_iff {nbits w : Nat} {i : Instr} :
    decodeTableWord nbits w = some i ↔ (w < 2 ^ nbits ∧ w < 2 ^ 10) ∧ decode (BitVec.ofNat 10 w) = some i := by
  simp [decodeTableWord]

/-- The fetch finds the word that was placed at `upc`. -/
theorem fetch_withFetchWord {s : State} {nbits w : Nat} (hc : patchWf s.csPatch = true)
    (hw : w < 2 ^ nbits ∧ w < 2 ^ 10) : fetch (s.withFetchWord nbits w) = some (BitVec.ofNat 10 w) := by
  rw [State.withFetchWord, if_pos hw]
  exact fetch_patchWord s _ _ hc rfl

/-- Settles O14: the fetch finds the word, and `upc` holds a value, so that its read leaves no record. -/
theorem placedWordRunsNext : Obligations.PlacedWordRunsNext := by
  intro s w i hc hi
  obtain ⟨hw, hi⟩ := decodeTableWord_eq_some_iff.1 hi
  rw [step_of_decoded rfl rfl (fetch_withFetchWord hc hw) hi]
  exact congrArg (exec i) (State.noteRead_true _)

/-- An operation whose index is outside its row's legal set raises Fatal(2) (log entry 11). -/
theorem exec_of_not_wellFormed {i : Instr} (s : State) (h : i.wellFormed = false) :
    exec i s = .next (s.raiseFatal .reservedOperationWord) := by
  cases i with
  | wld j => exact if_neg (of_decide_eq_false h)
  | wexp k => exact if_neg (of_decide_eq_false h)
  | ser j => exact dif_neg fun hj => of_decide_eq_false h (Nat.le_of_lt_succ hj)
  | pad | bchk | hinit | vinit | rnd k | hadd | bnext | fin => cases h

/-- Settles O34: fatal entry is all that such an operation does. -/
theorem illegalIndexRaisesFatalTwo : Obligations.IllegalIndexRaisesFatalTwo :=
  fun _ s h => ⟨_, exec_of_not_wellFormed s h, rfl, rfl, Safety.unchanged_raiseFatal s _⟩

end Sys2Proof.Machine
end

section
/-! The padding unit (R90 to R95): the padded length by arithmetic, the padded buffer field by field, and `PAD`. -/

namespace Sys2Proof.Machine

/-! The padded length (R90, R94). -/

/-- The padded length in whole blocks: one more than the blocks that `L + 8` fills (R90). -/
theorem paddedLength_eq_blocks (len : Nat) : paddedLength len = 64 * ((len + 8) / 64 + 1) := by
  unfold paddedLength zeroFill; omega

/-- Up to residue 55 the marker and the length field fit the block in which the message ends (R94). -/
theorem padding_of_residue_le {len : Nat} (h : len % 64 ≤ 55) :
    zeroFill len = 55 - len % 64 ∧ paddedLength len = 64 * (len / 64) + 64 := by
  refine ⟨?_, ?_⟩
  · unfold zeroFill; omega
  · rw [paddedLength_eq_blocks]; omega

/-- From residue 56 on they take one block more (R94). -/
theorem padding_of_residue_ge {len : Nat} (h : 56 ≤ len % 64) :
    zeroFill len = 119 - len % 64 ∧ paddedLength len = 64 * (len / 64) + 128 := by
  refine ⟨?_, ?_⟩
  · unfold zeroFill; omega
  · rw [paddedLength_eq_blocks]; omega

/-- The padded length exceeds the message by the marker, the zeros and the length field at least (R90). -/
theorem add_nine_le_paddedLength (len : Nat) : len + 9 ≤ paddedLength len := by
  unfold paddedLength; omega

/-- `Z` is the non-negative remainder of `55 − L` (R90). -/
theorem zeroFill_eq_emod (len : Nat) : (zeroFill len : Int) = (55 - (len : Int)) % 64 := by
  unfold zeroFill; omega

/-- Settles O16, from the padded length in whole blocks. -/
theorem paddedLengthIsTheLeastMultiple : Obligations.PaddedLengthIsTheLeastMultiple := by
  intro len
  have hblocks := paddedLength_eq_blocks len
  have hcount : blockCount len = (len + 8) / 64 + 1 := by
    rw [blockCount, hblocks, Nat.mul_div_cancel_left _ (by decide)]
  refine ⟨?_, ⟨_, hblocks⟩, add_nine_le_paddedLength len, ?_, zeroFill_eq_emod len, rfl, rfl, hcount, ?_⟩
  · rw [hblocks]; omega
  · rintro _ ⟨c, rfl⟩ hle
    rw [hblocks]; omega
  · rw [hcount]; exact Nat.le_add_left 1 _

/-- Settles O17: residues up to 55 stay in the block of the message's end, the others do not. -/
theorem paddingBranchesByResidue : Obligations.PaddingBranchesByResidue := by
  intro len
  refine ⟨fun h => ?_, fun _ h => padding_of_residue_le (h.trans (by decide)), fun h => ?_,
    fun h => padding_of_residue_ge h, fun h => (padding_of_residue_le h).2⟩
  · obtain ⟨hzero, hlen⟩ := padding_of_residue_le (len := len) (by omega)
    omega
  · obtain ⟨hzero, hlen⟩ := padding_of_residue_le (len := len) (by omega)
    omega

/-! The padded buffer, field by field (R91, R95). -/

/-- The length field begins after the message, the marker and the zeros. -/
theorem paddedLength_sub_eight (len : Nat) : paddedLength len - 8 = len + 1 + zeroFill len := rfl

theorem take_pad (msg : List Byte) : (pad msg).take msg.length = msg := by
  simp [pad]

theorem getElem?_pad_message {msg : List Byte} {k : Nat} (hk : k < msg.length) : (pad msg)[k]? = msg[k]? := by
  rw [← List.getElem?_take_of_lt hk, take_pad]

theorem getElem?_pad_marker (msg : List Byte) : (pad msg)[msg.length]? = some 0x80#8 := by
  simp [pad]

theorem getElem?_pad_zeros {msg : List Byte} {k : Nat} (hlo : msg.length < k)
    (hhi : k < paddedLength msg.length - 8) : (pad msg)[k]? = some 0x00#8 := by
  rw [paddedLength_sub_eight] at hhi
  rw [pad, List.getElem?_append_left (by simp; omega), List.getElem?_append_right (by simpa using hlo),
    List.getElem?_replicate_of_lt (by simp; omega)]

theorem drop_pad (msg : List Byte) :
    (pad msg).drop (paddedLength msg.length - 8) = bytes64 (lengthField msg.length) :=
  List.drop_left' (by simp only [List.length_append, List.length_replicate]; rfl)

/-- Byte `j` of a 64-bit integer, the most significant first (R11, R73). -/
theorem getElem?_bytes64 (v : BitVec 64) {j : Nat} (hj : j < 8) :
    (bytes64 v)[j]? = some (v.extractLsb' (56 - 8 * j) 8) := by
  interval_cases j <;> rfl

theorem getElem?_pad_length_field {msg : List Byte} {k : Nat} (hlo : paddedLength msg.length - 8 ≤ k)
    (hhi : k < paddedLength msg.length) :
    (pad msg)[k]? =
      some ((lengthField msg.length).extractLsb' (56 - 8 * (k - (paddedLength msg.length - 8))) 8) := by
  rw [← getElem?_bytes64 _ (by omega), ← drop_pad, List.getElem?_drop, Nat.add_sub_cancel' hlo]

/-- At every offset the padded buffer holds the padded byte function: one case per field (R91). -/
theorem getElem?_pad {msg : List Byte} {k : Nat} (hk : k < paddedLength msg.length) :
    (pad msg)[k]? = some (padByte msg k) := by
  unfold padByte
  split_ifs with hmessage hmarker hzeros
  · rw [getElem?_pad_message hmessage, List.getD_eq_getElem _ _ hmessage, List.getElem?_eq_getElem hmessage]
  · rw [hmarker, getElem?_pad_marker]
  · exact getElem?_pad_zeros (by omega) hzeros
  · exact getElem?_pad_length_field (Nat.le_of_not_lt hzeros) hk

/-- Settles O18, offset by offset. -/
theorem padIsThePaddedByteFunction : Obligations.PadIsThePaddedByteFunction :=
  fun msg => ⟨length_pad msg, fun _ => getElem?_pad⟩

/-- The last 8 bytes spell the length in bits (R95 (c)). -/
theorem beNat_length_field {msg : List Byte} (h : msg.length < 2 ^ 61) :
    beNat ((pad msg).drop ((pad msg).length - 8)) = 8 * msg.length := by
  rw [length_pad, drop_pad, beNat_bytes64, lengthField_toNat h]

/-- The length field gives the message's length, and so how much of the buffer is the message (R95 (d)). -/
theorem pad_injective {m₁ m₂ : List Byte} (h₁ : m₁.length < 2 ^ 61) (h₂ : m₂.length < 2 ^ 61)
    (h : pad m₁ = pad m₂) : m₁ = m₂ := by
  have hlen : m₁.length = m₂.length := by
    have hfield := beNat_length_field h₁
    rw [h, beNat_length_field h₂] at hfield
    omega
  calc m₁ = (pad m₁).take m₁.length := (take_pad m₁).symm
    _ = (pad m₂).take m₂.length := by rw [h, hlen]
    _ = m₂ := take_pad m₂

/-- Settles O19: the bounds of the padded length, the four fields, and the length in bits. -/
theorem paddedBufferInvariants : Obligations.PaddedBufferInvariants := by
  refine ⟨fun msg h => ?_, fun _ _ => pad_injective⟩
  have hfield := beNat_length_field h
  have hmod := paddedLength_mod_64 msg.length
  have hsum : paddedLength msg.length = msg.length + 1 + zeroFill msg.length + 8 := rfl
  obtain ⟨hlo, hhi⟩ := paddedLength_bounds msg.length
  rw [hfield, length_pad]
  refine ⟨hmod, hlo, add_nine_le_paddedLength _, hhi, take_pad msg, getElem?_pad_marker msg,
    fun k => getElem?_pad_zeros, rfl, ?_, ?_, ?_, ?_⟩ <;> omega

/-! `PAD` (R92). -/

/-- The state that `PAD` leaves where `MSG[0 .. LEN)` is `msg`. -/
def State.padded (s : State) (msg : List Byte) : State :=
  State.advance { s.noteRead s.held.len with
    pb := Memory.ofBytes 0 (pad msg)
    plen := BitVec.ofNat 62 (paddedLength s.len.toNat)
    held := { s.held with plen := true } }

/-- `PAD` goes on where the whole message is there, and reads just its `LEN` bytes (R92). -/
theorem execPad_of_message {s : State} {msg : List Byte} (hlen : msg.length = s.len.toNat)
    (hmsg : ∀ k, k < msg.length → s.msg.read k = msg[k]?) : execPad s = .next (s.padded msg) := by
  have hread : s.msg.readBytes 0 s.len.toNat = some msg :=
    (Memory.readBytes_eq_some ..).2 ⟨hlen, fun k hk => by rw [Nat.zero_add, hmsg k (hlen ▸ hk)]⟩
  rw [execPad, hread]
  rfl

/-- A space written with the padded buffer holds the padded byte function below `M`, and nothing from `M` on. -/
theorem read_ofBytes_pad (msg : List Byte) (k : Nat) :
    (Memory.ofBytes 0 (pad msg)).read k = if k < paddedLength msg.length then some (padByte msg k) else none := by
  rw [Memory.read_ofBytes, if_pos k.zero_le, Nat.sub_zero]
  split_ifs with hk
  · exact getElem?_pad hk
  · exact List.getElem?_eq_none (length_pad msg ▸ Nat.le_of_not_lt hk)

/-- Settles O20: the buffer by the padded byte function, and the rest by the frame of `PAD`. -/
theorem padBuildsThePaddedBuffer : Obligations.PadBuildsThePaddedBuffer := by
  refine ⟨fun s msg hlen hmsg => ?_, rfl, rfl, by decide⟩
  have hexec : execPad s = .next (s.padded msg) := execPad_of_message hlen hmsg
  exact ⟨s.padded msg, hexec, ofNat_paddedLength_toNat s.len, rfl, hlen ▸ read_ofBytes_pad msg,
    ⟨upcAfter_toNat, rfl⟩, rfl, Safety.unchanged_execPad hexec⟩

end Sys2Proof.Machine
end

section
/-! Block iteration (R111, R112): `BCHK` counts the blocks of the padded buffer, and `BNEXT` steps through them. -/

namespace Sys2Proof.Machine

/-- The number of blocks that `PLEN` can count fits `N`. -/
theorem ofNat_blocks_toNat (plen : BitVec 62) : (BitVec.ofNat 56 (plen.toNat / 64)).toNat = plen.toNat / 64 := by
  have hlt := plen.isLt
  rw [BitVec.toNat_ofNat, Nat.mod_eq_of_lt (by omega)]

/-- Settles O21: the branch that `PLEN` selects, and its frame. -/
theorem bchkCountsBlocksOrRaisesFatalOne : Obligations.BchkCountsBlocksOrRaisesFatalOne := by
  refine ⟨fun s hwhole => ?_, fun s hpartial => ?_, rfl, rfl⟩
  · obtain ⟨u, h⟩ : ∃ u, execBchk s = .next u := ⟨_, rfl⟩
    have hframe := Safety.unchanged_execBchk h
    rcases execBchk_next h with ⟨hpartial, -⟩ | ⟨-, rfl⟩
    · exact absurd hwhole hpartial
    · exact ⟨_, h, ofNat_blocks_toNat s.plen, rfl, rfl, rfl, ⟨upcAfter_toNat, rfl⟩, rfl, hframe⟩
  · obtain ⟨u, h⟩ : ∃ u, execBchk s = .next u := ⟨_, rfl⟩
    rcases execBchk_next h with ⟨-, rfl⟩ | ⟨hwhole, -⟩
    · exact ⟨_, h, rfl, rfl, rfl,
        ((Safety.unchanged_noteRead s _).trans (Safety.unchanged_raiseFatal _ _)).mono fun _ => Or.symm⟩
    · exact absurd hwhole hpartial

/-- Settles O22: `t` by `setT`, `upc` by whether a block remains, and the rest by the frame of `BNEXT`. -/
theorem bnextLoopsWhileABlockRemains : Obligations.BnextLoopsWhileABlockRemains := by
  refine ⟨fun s => ?_, rfl, rfl⟩
  exact ⟨_, rfl, State.setT_t_toNat _, congrArg Held.t (State.setT_held _ _), fun hmore => if_pos hmore,
    fun hlast => if_neg hlast, rfl, State.setT_noValueRead _ _, Safety.unchanged_execBnext rfl⟩

end Sys2Proof.Machine
end

section
/-! The small sigmas (R120, R121), bit by bit. -/

namespace Sys2Proof.Machine

/-- Bit `k` of a right shift is bit `k + n` of the word, and zero where the word has no such bit (R10). -/
theorem getLsbD_shr (x : Word) (n k : Nat) :
    (shr x n).getLsbD k = (decide (k + n < 32) && x.getLsbD (k + n)) := by
  rw [shr, BitVec.getLsbD_ushiftRight, Nat.add_comm]
  by_cases h : k + n < 32
  · rw [decide_eq_true h, Bool.true_and]
  · rw [decide_eq_false h, Bool.false_and, BitVec.getLsbD_of_ge _ _ (Nat.le_of_not_lt h)]

theorem getLsbD_sigma0 (x : Word) {k : Nat} (hk : k < 32) : (sigma0 x).getLsbD k =
    (x.getLsbD ((k + 7) % 32) ^^ x.getLsbD ((k + 18) % 32) ^^ (decide (k + 3 < 32) && x.getLsbD (k + 3))) := by
  rw [sigma0, BitVec.getLsbD_xor, BitVec.getLsbD_xor, getLsbD_rotr x (by decide) hk, getLsbD_rotr x (by decide) hk,
    getLsbD_shr]

theorem getLsbD_sigma1 (x : Word) {k : Nat} (hk : k < 32) : (sigma1 x).getLsbD k =
    (x.getLsbD ((k + 17) % 32) ^^ x.getLsbD ((k + 19) % 32) ^^ (decide (k + 10 < 32) && x.getLsbD (k + 10))) := by
  rw [sigma1, BitVec.getLsbD_xor, BitVec.getLsbD_xor, getLsbD_rotr x (by decide) hk, getLsbD_rotr x (by decide) hk,
    getLsbD_shr]

/-- Settles O3: each sigma bit by bit, and the printed values by evaluation. -/
theorem smallSigmasAreTwoRotationsAndAShift : Obligations.SmallSigmasAreTwoRotationsAndAShift :=
  ⟨fun x _ hk => ⟨getLsbD_sigma0 x hk, getLsbD_sigma1 x hk⟩, by decide⟩

end Sys2Proof.Machine
end

section
/-! The schedule expander (R122, R123): `WLD` and `WEXP` where they have an operation word. -/

namespace Sys2Proof.Machine

/-! Operation words as numbers, and where they stand (R76, R79). -/

/-- An operation word is `op · 64 + idx` (R76). -/
theorem encode_toNat (i : Instr) : (encode i).toNat = i.opcode.toNat * 2 ^ 6 + i.index.toNat := by
  rw [encode, BitVec.toNat_append, ← Nat.shiftLeft_add_eq_or_of_lt i.index.isLt, Nat.shiftLeft_eq]

/-- The control store holds the word of an operation with a legal index at the operation's address (R79). -/
theorem CS_address {i : Instr} (h : i.wellFormed = true) : CS (address i) = some (encode i) := by
  cases i with
  | pad | bchk | hinit | vinit | hadd | bnext | fin => rfl
  | wld j | wexp j | rnd j | ser j => revert j; decide +kernel

/-! `WLD` (R122). -/

/-- Where the four bytes are there, `WLD j` writes their big-endian word to `W[j]`. -/
theorem execWld_of_bytes {s : State} {j : BitVec 6} {b0 b1 b2 b3 : Byte} (hj : j.toNat ≤ 15)
    (h0 : s.pb.read (blockWordOffset s.t j) = some b0) (h1 : s.pb.read (blockWordOffset s.t j + 1) = some b1)
    (h2 : s.pb.read (blockWordOffset s.t j + 2) = some b2) (h3 : s.pb.read (blockWordOffset s.t j + 3) = some b3) :
    execWld j s = .next ((s.noteRead s.held.t).setW j (be32 b0 b1 b2 b3)).advance := by
  have hread : s.pb.readBytes (blockWordOffset s.t j) 4 = some [b0, b1, b2, b3] := by
    simp only [Memory.readBytes, Nat.add_assoc, Nat.reduceAdd, h0, h1, h2, h3]
  simp only [execWld, if_pos hj, hread]

/-- A word that has been written holds a value. -/
@[simp] theorem State.heldW_setW_self (s : State) (i : BitVec 6) (x : Word) : (s.setW i x).heldW i = true := by
  simp [State.heldW]

@[simp] theorem State.heldW_advance (s : State) (i : BitVec 6) : s.advance.heldW i = s.heldW i := rfl

/-- Settles O23: the word from its four bytes, the frame of `WLD`, and the row of the control store. -/
theorem wldLoadsABigEndianWord : Obligations.WldLoadsABigEndianWord := by
  refine ⟨fun s j b0 b1 b2 b3 hj h0 h1 h2 h3 => ?_, fun j hj => ⟨encode_toNat _, CS_address (i := .wld j) (decide_eq_true hj)⟩⟩
  have hexec := execWld_of_bytes hj h0 h1 h2 h3
  have hword := be32_toNat b0 b1 b2 b3
  exact ⟨_, hexec, by simpa using hword, by simp, ⟨upcAfter_toNat, rfl⟩, rfl,
    Safety.unchanged_execWld hexec⟩

/-! `WEXP` (R123). -/

/-- The word `c` places before `W[i]` (R123). -/
theorem getW_sub (s : State) {i c : BitVec 6} (h : c.toNat ≤ i.toNat) :
    s.getW (i - c) = s.w[i.toNat - c.toNat]'(by omega) := by
  simp only [State.getW, BitVec.toNat_sub_of_le h]

theorem heldW_sub (s : State) {i c : BitVec 6} (h : c.toNat ≤ i.toNat) :
    s.heldW (i - c) = s.held.w[i.toNat - c.toNat]'(by omega) := by
  simp only [State.heldW, BitVec.toNat_sub_of_le h]

/-- `WEXP i` from 16 on, with its sources where they stand in `W`. -/
theorem execWexp_of_le {s : State} {i : BitVec 6} (h16 : 16 ≤ i.toNat) :
    execWexp i s = .next ((s.noteRead (s.held.w[i.toNat - 2] && s.held.w[i.toNat - 7] && s.held.w[i.toNat - 15] &&
      s.held.w[i.toNat - 16])).setW i (expandWord s.w[i.toNat - 2] s.w[i.toNat - 7] s.w[i.toNat - 15]
        s.w[i.toNat - 16])).advance := by
  simp (disch := exact le_trans (by decide) h16) only [execWexp, if_pos h16, getW_sub, heldW_sub]
  rfl

/-- Settles O24: `W[i]` from its four sources, the frame of `WEXP`, and the row of the control store. -/
theorem wexpExpandsFromFourEarlierWords : Obligations.WexpExpandsFromFourEarlierWords := by
  refine ⟨fun s i h16 => ?_, fun i h16 => ⟨encode_toNat _, CS_address (i := .wexp i) (decide_eq_true h16)⟩⟩
  have hexec := execWexp_of_le (s := s) h16
  exact ⟨_, hexec, by simp [expandWord], by simp, ⟨upcAfter_toNat, rfl⟩, rfl,
    Safety.unchanged_execWexp hexec⟩

end Sys2Proof.Machine
end

section
/-! The schedule (R124): the words of `Schedule(B)`, and the run of operations that leaves them in `W`. -/

namespace Sys2Proof.Machine

/-! The 16 words of the block (R70, R72). -/

/-- Bytes that do not begin with four are fewer than four. -/
theorem length_lt_four {b : List Byte} (h : ∀ b0 b1 b2 b3 rest, b = b0 :: b1 :: b2 :: b3 :: rest → False) :
    b.length < 4 := by
  match b, h with
  | [], _ | [_], _ | [_, _], _ | [_, _, _], _ => simp
  | b0 :: b1 :: b2 :: b3 :: rest, h => exact (h b0 b1 b2 b3 rest rfl).elim

theorem length_wordsOfBytes (b : List Byte) : (wordsOfBytes b).length = b.length / 4 := by
  fun_induction wordsOfBytes b with
  | case1 b0 b1 b2 b3 rest ih => simp only [List.length_cons, ih]; omega
  | case2 b hshort => exact (Nat.div_eq_of_lt (length_lt_four hshort)).symm

/-- Word `j` is made of the four bytes from `4·j` on. -/
theorem getElem?_wordsOfBytes {b : List Byte} {j : Nat} (hj : 4 * j + 3 < b.length) : (wordsOfBytes b)[j]? =
    some (be32 (b.getD (4 * j) 0) (b.getD (4 * j + 1) 0) (b.getD (4 * j + 2) 0) (b.getD (4 * j + 3) 0)) := by
  fun_induction wordsOfBytes b generalizing j with
  | case1 b0 b1 b2 b3 rest ih =>
    cases j with
    | zero => rfl
    | succ j => exact ih (by simp only [List.length_cons] at hj; omega)
  | case2 b hshort => have hlt := length_lt_four hshort; omega

/-! The 48 expanded words (R124). -/

/-- Each word from 16 on is expanded from the words before it. -/
def Expanded (w : List Word) : Prop := ∀ i, 16 ≤ i → i < w.length → w[i]? =
  some (expandWord (w.getD (i - 2) 0) (w.getD (i - 7) 0) (w.getD (i - 15) 0) (w.getD (i - 16) 0))

theorem expanded_expandNext {w : List Word} (h : Expanded w) : Expanded (expandNext w) := by
  intro i hlo hi
  have hle : i ≤ w.length := by simpa [expandNext, Nat.lt_succ_iff] using hi
  have hold : ∀ c, 0 < c → c ≤ 16 → (expandNext w).getD (i - c) 0 = w.getD (i - c) 0 := fun c hc hc16 =>
    List.getD_append _ _ _ _ (by omega)
  rw [hold 2 (by decide) (by decide), hold 7 (by decide) (by decide), hold 15 (by decide) (by decide),
    hold 16 (by decide) (by decide)]
  rcases hle.lt_or_eq with hlt | rfl
  · rw [← h i hlo hlt]
    exact List.getElem?_append_left hlt
  · exact List.getElem?_concat_length

theorem expanded_iterate {w : List Word} (h : Expanded w) (n : Nat) : Expanded (expandNext^[n] w) :=
  Function.Iterate.rec Expanded h (fun _ => expanded_expandNext) n

theorem length_iterate_expandNext (w : List Word) (n : Nat) : (expandNext^[n] w).length = w.length + n := by
  induction n with
  | zero => rfl
  | succ n ih => rw [Function.iterate_succ_apply', expandNext, List.length_append, ih]; rfl

theorem prefix_iterate_expandNext (w : List Word) (n : Nat) : w <+: expandNext^[n] w :=
  Function.Iterate.rec (w <+: ·) (List.prefix_refl w) (fun _ h => h.trans (List.prefix_append _ _)) n

section
variable {b : List Byte} (hb : b.length = 64)
include hb

theorem length_wordsOfBytes_block : (wordsOfBytes b).length = 16 := by rw [length_wordsOfBytes, hb]

theorem length_schedule : (schedule b).length = 64 := by
  rw [schedule, length_iterate_expandNext, length_wordsOfBytes_block hb]

theorem getElem?_schedule_block {j : Nat} (hj : j < 16) : (schedule b)[j]? =
    some (be32 (b.getD (4 * j) 0) (b.getD (4 * j + 1) 0) (b.getD (4 * j + 2) 0) (b.getD (4 * j + 3) 0)) := by
  obtain ⟨rest, hrest⟩ := prefix_iterate_expandNext (wordsOfBytes b) 48
  rw [schedule, ← hrest, List.getElem?_append_left (by rwa [length_wordsOfBytes_block hb]),
    getElem?_wordsOfBytes (by omega)]

theorem expanded_schedule : Expanded (schedule b) :=
  expanded_iterate (fun _ hlo hi => absurd (length_wordsOfBytes_block hb ▸ hi) (Nat.not_lt.2 hlo)) 48

end

end Sys2Proof.Machine
end

section
/-! `SCHED` (R83, R124): operation by operation, the words written so far are those of the schedule. -/

namespace Sys2Proof.Safety

open Sys2Proof.Machine

/-! Runs of operations. -/

/-- A list of operations after one that goes on continues from the state that was left. -/
theorem execAll_append {xs ys : List Instr} {s u : State} (h : execAll xs s = .next u) :
    execAll (xs ++ ys) s = execAll ys u := by
  induction xs generalizing s with
  | nil => cases h; rfl
  | cons i rest ih =>
    rw [List.cons_append, execAll]
    rw [execAll] at h
    split at h
    · exact ih h
    · cases h
    · cases h

/-- A property `P k` that each operation of an indexed run carries from `k` to `k + 1` holds, at the run's length, of the
state that the run leaves. -/
theorem execAll_range {op : Nat → Instr} {P : Nat → State → Prop} {n : Nat} {s : State} (h0 : P 0 s)
    (hstep : ∀ k u, k < n → P k u → ∃ r, exec (op k) u = .next r ∧ P (k + 1) r) :
    ∃ u, execAll ((List.range n).map op) s = .next u ∧ P n u := by
  induction n with
  | zero => exact ⟨s, rfl, h0⟩
  | succ n ih =>
    obtain ⟨u, hu, hn⟩ := ih fun k u hk => hstep k u (Nat.lt_succ_of_lt hk)
    obtain ⟨r, hr, hr'⟩ := hstep n u n.lt_succ_self hn
    refine ⟨r, ?_, hr'⟩
    rw [List.range_succ, List.map_append, execAll_append hu]
    simp only [List.map_cons, List.map_nil, execAll, hr]

/-! The invariant of `SCHED`. -/

/-- What `SCHED` writes. -/
def schedWrites (p : Piece) : Prop := p = .upc ∨ p = .noValueRead ∨ ∃ i, p = .w i

/-- `u` is what the first `k` operations of `SCHED` leave of `s`, whose block is `b`: the first `k` words of `W` are those
of the schedule, and only `t` was read that the operations themselves had not written. -/
structure Scheduled (b : List Byte) (s : State) (k : Nat) (u : State) : Prop where
  words : ∀ i : Fin 64, i.val < k → (schedule b)[i.val]? = some u.w[i] ∧ u.held.w[i] = true
  record : u.noValueRead = (s.noValueRead || (decide (0 < k) && !s.held.t))
  frame : Unchanged schedWrites s u

variable {b : List Byte} {s u : State}

theorem Unchanged.refl (c : Piece → Prop) (s : State) : Unchanged c s s := by
  intro p _
  cases p
  case byte | phase | fcause | csPatch | moves | seen | fresh | noValueRead => rfl
  all_goals exact ⟨rfl, rfl⟩

theorem Scheduled.zero (b : List Byte) (s : State) : Scheduled b s 0 s :=
  ⟨fun _ hi => absurd hi (Nat.not_lt_zero _), (Bool.or_false _).symm, Unchanged.refl _ s⟩

/-- A word written so far, by its number. -/
theorem Scheduled.getElem_w {k i : Nat} (h : Scheduled b s k u) (hi : i < k) (h64 : i < 64) :
    u.w[i] = (schedule b).getD i 0 ∧ u.held.w[i] = true := by
  obtain ⟨hw, hheld⟩ := h.words ⟨i, h64⟩ hi
  exact ⟨by rw [List.getD_eq_getElem?_getD, hw]; rfl, hheld⟩

/-- The next word of the schedule, written to its place, with the record of an operation that reads `t` or only words
written before. -/
theorem Scheduled.succ {k : BitVec 6} {ok : Bool} {x : Word} (h : Scheduled b s k.toNat u)
    (hx : (schedule b)[k.toNat]? = some x) (hok : ok = s.held.t ∨ ok = true ∧ 0 < k.toNat) :
    Scheduled b s (k.toNat + 1) ((u.noteRead ok).setW k x).advance where
  words i hi := by
    rcases (Nat.lt_succ_iff.1 hi).lt_or_eq with hlt | heq
    · have hne : k.toNat ≠ i.val := hlt.ne'
      simpa [hne] using h.words i hlt
    · obtain rfl : i = k.toFin := Fin.ext heq
      simpa using hx
  record := by
    simp only [State.advance_noValueRead, State.setW_noValueRead, State.noteRead_noValueRead, h.record]
    rcases hok with rfl | ⟨rfl, hk⟩
    · cases s.held.t <;> simp
    · simp [hk]
  frame := (h.frame.trans (((unchanged_noteRead u ok).trans (unchanged_setW _ k x)).trans (unchanged_advance _))).mono
    fun p hp => by
      rcases hp with hp | (rfl | rfl) | rfl
      · exact hp
      all_goals simp [schedWrites]

section
variable (hb : b.length = 64)
include hb

/-- `WLD j` finds its four bytes in the block, and its word is the next of the schedule. -/
theorem Scheduled.wld {j : BitVec 6} {k : Nat} (h : Scheduled b s k u) (hk : k < 16) (hj : j.toNat = k)
    (hblock : ∀ m, m < 64 → s.pb.read (64 * s.t.toNat + m) = b[m]?) :
    ∃ r, exec (.wld j) u = .next r ∧ Scheduled b s (k + 1) r := by
  subst hj
  obtain ⟨ht, hheld⟩ : (Piece.t).same s u := h.frame .t (by simp [schedWrites])
  have hread : ∀ c, c < 4 → u.pb.read (blockWordOffset u.t j + c) = some (b.getD (4 * j.toNat + c) 0) := by
    intro c hc
    have hpb : (Piece.byte .pb (blockWordOffset u.t j + c)).same s u := h.frame _ (by simp [schedWrites])
    have hlt : 4 * j.toNat + c < b.length := by omega
    rw [List.getD_eq_getElem _ _ hlt, ← List.getElem?_eq_getElem hlt, ← hblock _ (hb ▸ hlt), ← Nat.add_assoc, ← ht]
    exact hpb
  exact ⟨_, execWld_of_bytes (Nat.le_of_lt_succ hk) (hread 0 (by decide)) (hread 1 (by decide)) (hread 2 (by decide))
    (hread 3 (by decide)), h.succ (getElem?_schedule_block hb hk) (.inl hheld)⟩

/-- `WEXP i` finds its four sources written, and its word is the next of the schedule. -/
theorem Scheduled.wexp {i : BitVec 6} {k : Nat} (h : Scheduled b s k u) (hk : 16 ≤ k) (hi : i.toNat = k) :
    ∃ r, exec (.wexp i) u = .next r ∧ Scheduled b s (k + 1) r := by
  subst hi
  have hlt := i.isLt
  obtain ⟨hw2, hheld2⟩ := h.getElem_w (i := i.toNat - 2) (by omega) (by omega)
  obtain ⟨hw7, hheld7⟩ := h.getElem_w (i := i.toNat - 7) (by omega) (by omega)
  obtain ⟨hw15, hheld15⟩ := h.getElem_w (i := i.toNat - 15) (by omega) (by omega)
  obtain ⟨hw16, hheld16⟩ := h.getElem_w (i := i.toNat - 16) (by omega) (by omega)
  have hword := expanded_schedule hb i.toNat hk (by rwa [length_schedule hb])
  rw [← hw2, ← hw7, ← hw15, ← hw16] at hword
  exact ⟨_, execWexp_of_le hk, h.succ hword (.inr ⟨by simp [hheld2, hheld7, hheld15, hheld16], by omega⟩)⟩

/-- `SCHED` goes on, and has then written all 64 words. -/
theorem execAll_schedOps (hblock : ∀ m, m < 64 → s.pb.read (64 * s.t.toNat + m) = b[m]?) :
    ∃ u, execAll schedOps s = .next u ∧ Scheduled b s 64 u := by
  obtain ⟨u, hu, hloaded⟩ := execAll_range (n := 16) (Scheduled.zero b s) fun k u hk h =>
    h.wld (j := BitVec.ofNat 6 k) hb hk (Nat.mod_eq_of_lt (by omega)) hblock
  obtain ⟨r, hr, hexpanded⟩ := execAll_range (n := 48) (P := fun i => Scheduled b s (16 + i)) hloaded fun i u hi h =>
    h.wexp (i := BitVec.ofNat 6 (16 + i)) hb (Nat.le_add_right 16 i) (Nat.mod_eq_of_lt (by omega))
  exact ⟨r, (execAll_append hu).trans hr, hexpanded⟩

end

/-- Settles O25: the words of the schedule by its iteration, and the run of `SCHED` by its invariant at 64. -/
theorem schedComputesTheSchedule : Obligations.SchedComputesTheSchedule := by
  refine ⟨fun b hb => ⟨length_schedule hb, fun _ => getElem?_schedule_block hb, fun i hlo hi =>
    expanded_schedule hb i hlo (by rwa [length_schedule hb])⟩, fun s b hb hblock => ?_⟩
  obtain ⟨u, hu, hwords, hrecord, hframe⟩ := execAll_schedOps hb hblock
  exact ⟨u, hu, fun i => hwords i i.isLt, hrecord, hframe⟩

end Sys2Proof.Safety
end

section
/-! The word functions of the rounds (R140 to R143), bit by bit. -/

namespace Sys2Proof.Machine

theorem getLsbD_bigSigma0 (x : Word) {k : Nat} (hk : k < 32) : (bigSigma0 x).getLsbD k =
    (x.getLsbD ((k + 2) % 32) ^^ x.getLsbD ((k + 13) % 32) ^^ x.getLsbD ((k + 22) % 32)) := by
  rw [bigSigma0, BitVec.getLsbD_xor, BitVec.getLsbD_xor, getLsbD_rotr x (by decide) hk, getLsbD_rotr x (by decide) hk,
    getLsbD_rotr x (by decide) hk]

theorem getLsbD_bigSigma1 (x : Word) {k : Nat} (hk : k < 32) : (bigSigma1 x).getLsbD k =
    (x.getLsbD ((k + 6) % 32) ^^ x.getLsbD ((k + 11) % 32) ^^ x.getLsbD ((k + 25) % 32)) := by
  rw [bigSigma1, BitVec.getLsbD_xor, BitVec.getLsbD_xor, getLsbD_rotr x (by decide) hk, getLsbD_rotr x (by decide) hk,
    getLsbD_rotr x (by decide) hk]

/-- Settles O4: each sigma bit by bit, and the printed values by evaluation. -/
theorem capitalSigmasAreThreeRotations : Obligations.CapitalSigmasAreThreeRotations :=
  ⟨fun x _ hk => ⟨getLsbD_bigSigma0 x hk, getLsbD_bigSigma1 x hk⟩, by decide⟩

theorem getLsbD_Ch (x y z : Word) {k : Nat} (hk : k < 32) :
    (Ch x y z).getLsbD k = if x.getLsbD k then y.getLsbD k else z.getLsbD k := by
  rw [Ch, BitVec.getLsbD_xor, BitVec.getLsbD_and, BitVec.getLsbD_and, BitVec.getLsbD_not, decide_eq_true hk]
  cases x.getLsbD k <;> simp

theorem getLsbD_Maj (x y z : Word) (k : Nat) : (Maj x y z).getLsbD k =
    (x.getLsbD k && y.getLsbD k ^^ x.getLsbD k && z.getLsbD k ^^ y.getLsbD k && z.getLsbD k) := by
  simp only [Maj, BitVec.getLsbD_xor, BitVec.getLsbD_and]

/-- The exclusive or of the three pairwise conjunctions is the majority of three bits. -/
theorem xor_and_eq_true_iff_two_le (a b c : Bool) :
    (a && b ^^ a && c ^^ b && c) = true ↔ 2 ≤ a.toNat + b.toNat + c.toNat := by
  revert a b c; decide

theorem Maj_swap_first (x y z : Word) : Maj x y z = Maj y x z := by
  rw [Maj, Maj, BitVec.and_comm x y, BitVec.xor_assoc, BitVec.xor_comm (x &&& z), ← BitVec.xor_assoc]

theorem Maj_swap_last (x y z : Word) : Maj x y z = Maj x z y := by
  rw [Maj, Maj, BitVec.and_comm y z, BitVec.xor_comm (x &&& y)]

/-- Where all of `x`'s bits are 1, `Ch` is `y`. -/
theorem Ch_allOnes (y z : Word) : Ch 0xffffffff y z = y := by
  rw [Ch, show (0xffffffff : Word) = BitVec.allOnes 32 from rfl, BitVec.allOnes_and, BitVec.not_allOnes,
    BitVec.zero_and, BitVec.xor_zero]

/-- Where all of `x`'s bits are 0, `Ch` is `z`. -/
theorem Ch_zero (y z : Word) : Ch 0 y z = z := by
  rw [Ch, BitVec.ofNat_eq_ofNat, BitVec.zero_and, BitVec.zero_xor, BitVec.not_zero, BitVec.allOnes_and]

/-- Settles O5: `Ch` and `Maj` bit by bit, the symmetry of `Maj`, and the printed values by evaluation. -/
theorem chooseAndMajorityBitByBit : Obligations.ChooseAndMajorityBitByBit :=
  ⟨fun x y z k hk => ⟨getLsbD_Ch x y z hk, getLsbD_Maj x y z k ▸ xor_and_eq_true_iff_two_le _ _ _⟩,
    fun x y z => ⟨Maj_swap_first x y z, Maj_swap_last x y z⟩, fun y z => ⟨Ch_allOnes y z, Ch_zero y z⟩, by decide⟩

end Sys2Proof.Machine
end

section
/-! The operations of the compression pipeline (R144 to R147): `HINIT`, `VINIT`, `RND` and `HADD`. -/

namespace Sys2Proof.Machine

/-- Settles O26: the written `H` is `IV`, and the frame of `HINIT`. -/
theorem hinitSeedsTheHashState : Obligations.HinitSeedsTheHashState :=
  ⟨fun _ => ⟨_, rfl, fun _ => rfl, rfl, ⟨upcAfter_toNat, rfl⟩, Safety.unchanged_execHinit rfl⟩, rfl, rfl, rfl, rfl⟩

/-- Settles O27: the written `V` is `H`, and the frame of `VINIT`. -/
theorem vinitLoadsTheWorkingVariables : Obligations.VinitLoadsTheWorkingVariables :=
  ⟨fun _ => ⟨_, rfl, fun _ => rfl, rfl, ⟨upcAfter_toNat, rfl⟩, rfl, Safety.unchanged_execVinit rfl⟩, rfl, rfl⟩

/-- `T1` is the exact sum of its five terms, reduced once. -/
theorem roundT1_toNat (v : Vector Word 8) (k w : Word) : (roundT1 v k w).toNat =
    (v[7].toNat + (bigSigma1 v[4]).toNat + (Ch v[4] v[5] v[6]).toNat + k.toNat + w.toNat) % 2 ^ 32 := by
  simp only [roundT1, BitVec.toNat_add, Nat.mod_add_mod]

theorem roundT2_toNat (v : Vector Word 8) :
    (roundT2 v).toNat = ((bigSigma0 v[0]).toNat + (Maj v[0] v[1] v[2]).toNat) % 2 ^ 32 :=
  BitVec.toNat_add _ _

/-- Settles O28: the eight words of one round, `T1` and `T2` as numbers, the frame of `RND`, its rows of the control
store, and the worked example by evaluation. -/
theorem rndIsOneRound : Obligations.RndIsOneRound := by
  refine ⟨fun s i => ⟨_, rfl, ?_, rfl, ⟨upcAfter_toNat, rfl⟩, rfl, Safety.unchanged_execRnd rfl⟩,
    fun i => ⟨encode_toNat _, CS_address (i := .rnd i) rfl⟩, by decide⟩
  intro T1 T2 hT1 hT2
  rw [← roundT1_toNat] at hT1
  rw [← roundT2_toNat] at hT2
  subst hT1 hT2
  exact ⟨rfl, rfl, rfl, BitVec.toNat_add _ _, rfl, rfl, rfl, BitVec.toNat_add _ _⟩

theorem getElem_addWords (x y : Vector Word 8) (j : Fin 8) : (addWords x y)[j] = add32 x[j] y[j] :=
  Vector.getElem_ofFn j.isLt

/-- Settles O29: the eight wrapping sums, and the frame of `HADD`. -/
theorem haddFoldsTheWorkingVariables : Obligations.HaddFoldsTheWorkingVariables := by
  refine ⟨fun s => ⟨_, rfl, fun j => ?_, rfl, ⟨upcAfter_toNat, rfl⟩, rfl, Safety.unchanged_execHadd rfl⟩, rfl, rfl⟩
  exact (congrArg BitVec.toNat (getElem_addWords s.h s.v j)).trans (BitVec.toNat_add _ _)

end Sys2Proof.Machine
end

section
/-! `COMPRESS` (R83, R148): after `SCHED`, round by round, `V` is the working variables of `Compress(H, B)`. -/

namespace Sys2Proof.Safety

open Sys2Proof.Machine

variable {b : List Byte} {s u : State}

/-- What the loop body writes before `HADD`: not `H`. -/
def roundWrites (p : Piece) : Prop := schedWrites p ∨ ∃ j, p = .v j

/-- `u` is what `SCHED`, `VINIT` and the first `k` rounds leave of `s`, whose block is `b`: `V` is `V_k`, `W` is the
schedule, and only `t` and `H` were read that the operations themselves had not written. -/
structure Rounded (b : List Byte) (s : State) (k : Nat) (u : State) : Prop where
  working : u.v = rounds s.h (schedule b) k
  working_held : u.held.v = true
  words : ∀ i : BitVec 6, u.getW i = (schedule b).getD i.toNat 0 ∧ u.heldW i = true
  record : Recorded (s.held.t && s.held.h) s u
  frame : Unchanged roundWrites s u

/-- `VINIT` after `SCHED` loads the `H` that `SCHED` has left alone. -/
theorem Scheduled.vinit (h : Scheduled b s 64 u) : ∃ r, exec .vinit u = .next r ∧ Rounded b s 0 r := by
  obtain ⟨hh, hheld⟩ := hash_eq fun j => h.frame (.h j) (by simp [schedWrites])
  refine ⟨_, rfl, hh, rfl, fun i => h.getElem_w i.isLt i.isLt, ?_, (h.frame.trans (unchanged_execVinit rfl)).mono ?_⟩
  · simp [Recorded, h.record, hheld, Bool.or_assoc]
  · rintro p (hp | rfl | rfl | ⟨j, rfl⟩)
    · exact .inl hp
    all_goals simp [roundWrites, schedWrites]

/-- `RND k` takes `V_k` to `V_{k+1}` and reads only what was written before. -/
theorem Rounded.rnd {i : BitVec 6} {k : Nat} (h : Rounded b s k u) (hi : i.toNat = k) :
    ∃ r, exec (.rnd i) u = .next r ∧ Rounded b s (k + 1) r := by
  subst hi
  obtain ⟨hw, hheld⟩ := h.words i
  have hrecord := h.record
  refine ⟨_, rfl, ?_, rfl, h.words, ?_, (h.frame.trans (unchanged_execRnd (i := i) rfl)).mono ?_⟩
  · simp [rounds, h.working, hw]
  · simpa [Recorded, h.working_held, hheld] using hrecord
  · rintro p (hp | rfl | rfl | ⟨j, rfl⟩)
    · exact hp
    all_goals simp [roundWrites, schedWrites]

/-- `SCHED`, `VINIT` and the 64 rounds go on, and leave `V_64` in `V`. -/
theorem execAll_rounds (hb : b.length = 64) (hblock : ∀ m, m < 64 → s.pb.read (64 * s.t.toNat + m) = b[m]?) :
    ∃ u, execAll (schedOps ++ [.vinit] ++ (List.range 64).map fun i => .rnd (BitVec.ofNat 6 i)) s = .next u ∧
      Rounded b s 64 u := by
  obtain ⟨u, hu, hscheduled⟩ := execAll_schedOps hb hblock
  obtain ⟨v, hv, hloaded⟩ := hscheduled.vinit
  obtain ⟨r, hr, hrounded⟩ := execAll_range (op := fun i => .rnd (BitVec.ofNat 6 i)) hloaded fun k _ hk h =>
    h.rnd (Nat.mod_eq_of_lt hk)
  refine ⟨r, ?_, hrounded⟩
  rw [List.append_assoc, execAll_append hu, List.singleton_append, execAll, hv]
  exact hr

/-- `HADD` after the rounds adds `V_64` into the `H` that the rounds have left alone. -/
theorem Rounded.hadd (h : Rounded b s 64 u) : ∃ r, exec .hadd u = .next r ∧ r.h = compress s.h b ∧
    r.held.h = true ∧ Recorded (s.held.t && s.held.h) s r ∧
      Unchanged (fun p => roundWrites p ∨ ∃ j, p = .h j) s r := by
  obtain ⟨hh, hheld⟩ := hash_eq fun j => h.frame (.h j) (by simp [roundWrites, schedWrites])
  have hrecord : u.noValueRead = _ := h.record
  refine ⟨_, rfl, ?_, rfl, ?_, (h.frame.trans (unchanged_execHadd rfl)).mono ?_⟩
  · simp [compress, hh, h.working]
  · simp only [Recorded, State.advance_noValueRead, State.setH_noValueRead, State.noteRead_noValueRead, hrecord, hheld,
      h.working_held]
    cases s.held.h <;> simp
  · rintro p (hp | rfl | rfl | ⟨j, rfl⟩)
    · exact .inl hp
    all_goals simp [roundWrites, schedWrites]

/-- Settles O30: the rounds by their invariant at 64, then `HADD`. -/
theorem compressFoldsOneBlock : Obligations.CompressFoldsOneBlock := by
  intro s b hb hblock
  obtain ⟨u, hu, hrounded⟩ := execAll_rounds hb hblock
  obtain ⟨r, hr, hcompress, hheld, hrecord, hframe⟩ := hrounded.hadd
  refine ⟨r, ?_, hcompress, getElem_addWords _ _, hheld, hrecord, hframe.mono ?_⟩
  · rw [compressOps, execAll_append hu]
    simp only [execAll, hr]
  · rintro p (((rfl | rfl | ⟨i, rfl⟩) | ⟨j, rfl⟩) | ⟨j, rfl⟩) <;> simp

end Sys2Proof.Safety
end

section
/-! The serializer (R170, R171): the bytes of `Serialize(H)`, and `SER` where it has an operation word. -/

namespace Sys2Proof.Machine

/-! Words as bytes, four for each (R11, R70). -/

theorem length_flatMap_bytes32 (ws : List Word) : (ws.flatMap bytes32).length = 4 * ws.length := by
  induction ws with
  | nil => rfl
  | cons w ws ih => rw [List.flatMap_cons, List.length_append, ih]; exact Nat.add_comm 4 (4 * ws.length)

/-- The bytes of word `j` stand from `4·j` on. -/
theorem getElem?_flatMap_bytes32 (ws : List Word) (j c : Nat) (hc : c < 4) :
    (ws.flatMap bytes32)[4 * j + c]? = ws[j]?.bind fun w => (bytes32 w)[c]? := by
  induction ws generalizing j with
  | nil => rfl
  | cons w ws ih =>
    rw [List.flatMap_cons]
    cases j with
    | zero => rw [Nat.mul_zero, Nat.zero_add, List.getElem?_append_left hc]; rfl
    | succ j =>
      rw [List.getElem?_append_right (show 4 ≤ 4 * (j + 1) + c by omega), List.getElem?_cons_succ, ← ih]
      exact congrArg _ (show 4 * (j + 1) + c - 4 = 4 * j + c by omega)

/-- `wordsOfBytes` reads back the words that `bytes32` spells. -/
theorem wordsOfBytes_flatMap_bytes32 (ws : List Word) : wordsOfBytes (ws.flatMap bytes32) = ws := by
  induction ws with
  | nil => rfl
  | cons w ws ih => exact congrArg₂ List.cons (be32_bytes32 w) ih

/-! `Serialize(H)` (R171). -/

theorem length_serialize (h : Vector Word 8) : (serialize h).length = 32 := by
  rw [serialize, length_flatMap_bytes32, Vector.length_toList]

/-- Word `j` of `H` gives the bytes from `4·j` on. -/
theorem getElem?_serialize (h : Vector Word 8) {j : Nat} (hj : j < 8) (c : Nat) (hc : c < 4) :
    (serialize h)[4 * j + c]? = (bytes32 h[j])[c]? := by
  rw [serialize, getElem?_flatMap_bytes32 _ j c hc, Vector.getElem?_toList, Vector.getElem?_eq_getElem hj]
  rfl

theorem serialize_injective : Function.Injective serialize := fun h₁ h₂ heq => by
  have hwords := congrArg wordsOfBytes heq
  rwa [serialize, serialize, wordsOfBytes_flatMap_bytes32, wordsOfBytes_flatMap_bytes32, Vector.toList_inj] at hwords

/-! `SER` (R170). -/

/-- `SER j` from 0 to 7 stores the four bytes of `H[j]`. -/
theorem execSer_of_lt (s : State) {j : BitVec 6} (hj : j.toNat < 8) :
    execSer j s = .next (State.advance { s.noteRead s.held.h with
      digest := s.digest.writeBytes (digestOffset j) (bytes32 s.h[j.toNat]) }) := dif_pos hj

/-- The four bytes of a stored word read back. -/
theorem read_writeBytes_bytes32 (m : Memory) (a : Nat) (w : Word) (c : Nat) (hc : c < 4) :
    (m.writeBytes a (bytes32 w)).read (a + c) = (bytes32 w)[c]? := by
  rw [Memory.read_writeBytes, if_pos ⟨Nat.le_add_right a c, Nat.add_lt_add_left hc a⟩, Nat.add_sub_cancel_left]

/-- Settles O31: the four stored bytes, the frame of `SER`, and the row of the control store. -/
theorem serStoresFourDigestBytes : Obligations.SerStoresFourDigestBytes := by
  refine ⟨fun s j hj => ?_, fun j hj =>
    ⟨encode_toNat _, CS_address (i := .ser j) (decide_eq_true (Nat.le_of_lt_succ hj))⟩⟩
  have hexec := execSer_of_lt s hj
  have hread := read_writeBytes_bytes32 s.digest (digestOffset j) s.h[j.toNat]
  exact ⟨_, hexec, hread 0 (by decide), hread 1 (by decide), hread 2 (by decide), hread 3 (by decide),
    ⟨upcAfter_toNat, rfl⟩, rfl, Safety.unchanged_execSer hexec⟩

end Sys2Proof.Machine
end

section
/-! `SERIALIZE` (R83, R171): operation by operation, the bytes stored so far are those of `Serialize(H)`. -/

namespace Sys2Proof.Safety

open Sys2Proof.Machine

variable {s u : State}

/-- What `SERIALIZE` writes. -/
def serializeWrites (p : Piece) : Prop := p = .upc ∨ p = .noValueRead ∨ ∃ a, a < 32 ∧ p = .byte .digest a

/-- `u` is what the first `k` operations of `SERIALIZE` leave of `s`: the first `4·k` bytes of `DIGEST` are those of
`Serialize(H)`, and only `H` was read. -/
structure Serialized (s : State) (k : Nat) (u : State) : Prop where
  bytes : ∀ a, a < 4 * k → u.digest.read a = (serialize s.h)[a]?
  record : u.noValueRead = (s.noValueRead || (decide (0 < k) && !s.held.h))
  frame : Unchanged serializeWrites s u

theorem Serialized.zero (s : State) : Serialized s 0 s :=
  ⟨fun _ ha => absurd ha (Nat.not_lt_zero _), (Bool.or_false _).symm, Unchanged.refl _ s⟩

/-- `SER k` stores the next four bytes of `Serialize(H)`, from the `H` that the operations before it have left alone. -/
theorem Serialized.ser {j : BitVec 6} {k : Nat} (h : Serialized s k u) (hk : k < 8) (hj : j.toNat = k) :
    ∃ r, exec (.ser j) u = .next r ∧ Serialized s (k + 1) r := by
  subst hj
  obtain ⟨hh, hheld⟩ := hash_eq fun i => h.frame (.h i) (by simp [serializeWrites])
  have hexec := execSer_of_lt u hk
  refine ⟨_, hexec, fun a ha => ?_, ?_, (h.frame.trans (unchanged_execSer hexec)).mono ?_⟩
  · rw [State.advance_digest, hh]
    by_cases hold : a < 4 * j.toNat
    · rw [Memory.read_writeBytes, if_neg fun hin => absurd hold (Nat.not_lt.2 hin.1)]
      exact h.bytes a hold
    · obtain ⟨c, rfl⟩ := Nat.exists_eq_add_of_le (Nat.not_lt.1 hold)
      have hc : c < 4 := by omega
      rw [getElem?_serialize s.h hk c hc]
      exact read_writeBytes_bytes32 _ _ _ c hc
  · rw [State.advance_noValueRead, State.noteRead_noValueRead, h.record, hheld]
    cases s.held.h <;> simp
  · rintro p (hp | hp)
    · exact hp
    · simp only [writes, if_pos (Nat.le_of_lt_succ hk)] at hp
      obtain rfl | rfl | ⟨a, rfl, -, hlt⟩ := hp
      · exact .inl rfl
      · exact .inr (.inl rfl)
      · exact .inr (.inr ⟨a, by rw [digestOffset] at hlt; omega, rfl⟩)

/-- `SERIALIZE` goes on, and has then stored all 32 bytes. -/
theorem execAll_serializeOps (s : State) : ∃ u, execAll serializeOps s = .next u ∧ Serialized s 8 u :=
  execAll_range (Serialized.zero s) fun k _ hk h => h.ser (j := BitVec.ofNat 6 k) hk (Nat.mod_eq_of_lt (by omega))

/-- Settles O32: the run of `SERIALIZE` by its invariant at 8, the words of `Serialize(H)` read back, and
`Serialize(IV)` by evaluation. -/
theorem serializeWritesTheDigest : Obligations.SerializeWritesTheDigest := by
  refine ⟨fun s => ?_, fun h => ⟨length_serialize h, fun j => ?_⟩, fun _ _ heq => serialize_injective heq, rfl⟩
  · obtain ⟨u, hu, hbytes, hrecord, hframe⟩ := execAll_serializeOps s
    exact ⟨u, hu, hbytes, hrecord, hframe⟩
  · have hbyte := getElem?_serialize h j.isLt
    exact ⟨_, _, _, _, hbyte 0 (by decide), hbyte 1 (by decide), hbyte 2 (by decide), hbyte 3 (by decide),
      (be32_bytes32 h[j]).symm⟩

end Sys2Proof.Safety
end

section
/-! The sequencer (R181, R183): what a step of the core runs, and where `upc` stands after it. -/

namespace Sys2Proof.Safety

open Sys2Proof.Machine

variable {s u : State} {i : Instr}

/-! The core's step, phase by phase (R181, R211). -/

theorem coreStep_of_decoded {w : OpWord} (hp : s.phase = .run) (hw : fetch s = some w) (hi : decode w = some i) :
    coreStep s = exec i (s.noteRead s.held.upc) := by
  simp only [coreStep, hp, hw, runWord, hi]

theorem coreStep_of_reserved {w : OpWord} (hp : s.phase = .run) (hw : fetch s = some w) (hd : decode w = none) :
    coreStep s = .next ((s.noteRead s.held.upc).raiseFatal .reservedOperationWord) := by
  simp only [coreStep, hp, hw, runWord, hd]

theorem coreStep_of_not_run (hp : s.phase ≠ .run) : coreStep s = .next s := by
  unfold coreStep
  split
  · exact absurd ‹_› hp
  all_goals rfl

/-! With no move of the outside, or a `wait`, the step is the core's (log entry 6). -/

theorem step_nil (hm : s.moves = []) : step s = coreStep s := stepWith_nil _ hm

theorem step_cons {m : Move} {rest : List Move} (hm : s.moves = m :: rest) :
    step s = outsideMove Config.LMAX m { s with moves := rest } := stepWith_cons _ hm

theorem step_wait {rest : List Move} (hm : s.moves = .wait :: rest) : step s = coreStep { s with moves := rest } :=
  step_cons hm

/-- Settles O11: the step is the core's, whose fetch does not look at the moves of the outside. -/
theorem stepRunsTheDecodedOperation : Obligations.StepRunsTheDecodedOperation := by
  refine ⟨fun s w i hp hw hi => ⟨fun hm => ?_, fun rest hm => ?_⟩, fetch_of_intact,
    fun s w hp hw hd => ⟨fun hm => ?_, fun rest hm => ?_⟩, fun s hp => ⟨fun hm => ?_, fun rest hm => ?_⟩⟩
  · exact (step_nil hm).trans (coreStep_of_decoded hp hw hi)
  · exact (step_wait hm).trans (coreStep_of_decoded (s := { s with moves := rest }) hp hw hi)
  · exact (step_nil hm).trans (coreStep_of_reserved hp hw hd)
  · exact (step_wait hm).trans (coreStep_of_reserved (s := { s with moves := rest }) hp hw hd)
  · exact (step_nil hm).trans (coreStep_of_not_run hp)
  · exact (step_wait hm).trans (coreStep_of_not_run (s := { s with moves := rest }) hp)

/-! `upc` after an operation (R183). -/

/-- An operation other than BNEXT and FIN ends by advancing `upc` or by raising, from a state in which `PHASE`, `FCAUSE`
and `upc` are still as before. -/
theorem exec_ends (h : exec i s = .next u) (hbnext : i ≠ .bnext) (hfin : i ≠ .fin) :
    ∃ r : State, (u = r.advance ∨ ∃ c, u = r.raiseFatal c) ∧
      r.phase = s.phase ∧ r.fcause = s.fcause ∧ r.upc = s.upc := by
  cases i with
  | pad => obtain ⟨msg, -, rfl⟩ := execPad_next h; exact ⟨_, .inl rfl, rfl, rfl, rfl⟩
  | bchk =>
    rcases execBchk_next h with ⟨-, rfl⟩ | ⟨-, rfl⟩
    · exact ⟨_, .inr ⟨_, rfl⟩, rfl, rfl, rfl⟩
    · exact ⟨_, .inl rfl, rfl, rfl, rfl⟩
  | wld j =>
    rcases execWld_next h with ⟨-, rfl⟩ | ⟨-, b0, b1, b2, b3, -, rfl⟩
    · exact ⟨_, .inr ⟨_, rfl⟩, rfl, rfl, rfl⟩
    · exact ⟨_, .inl rfl, rfl, rfl, rfl⟩
  | wexp k =>
    rcases execWexp_next h with ⟨-, rfl⟩ | ⟨-, rfl⟩
    · exact ⟨_, .inr ⟨_, rfl⟩, rfl, rfl, rfl⟩
    · exact ⟨_, .inl rfl, rfl, rfl, rfl⟩
  | ser j =>
    rcases execSer_next h with ⟨-, rfl⟩ | ⟨-, rfl⟩
    · exact ⟨_, .inr ⟨_, rfl⟩, rfl, rfl, rfl⟩
    · exact ⟨_, .inl rfl, rfl, rfl, rfl⟩
  | hinit | vinit | rnd k | hadd => cases h; exact ⟨_, .inl rfl, rfl, rfl, rfl⟩
  | bnext => exact absurd rfl hbnext
  | fin => exact absurd rfl hfin

/-- BNEXT goes to one of the two addresses of the block loop, and leaves `PHASE` and `FCAUSE`. -/
theorem execBnext_control (h : execBnext s = .next u) :
    (u.upc = 3 ∨ u.upc = 134) ∧ u.phase = s.phase ∧ u.fcause = s.fcause ∧ u.held.upc = true := by
  cases h
  exact ⟨ite_eq_or_eq _ _ _, State.setT_phase _ _, State.setT_fcause _ _, rfl⟩

/-- FIN leaves `RUN`, and leaves `upc`. -/
theorem execFin_control (h : execFin s = .next u) : u.upc = s.upc ∧ u.phase = .done := by
  cases h
  exact ⟨rfl, rfl⟩

/-- Settles O15: `upc` by how the operation ends, and its range by what every state of a correct core supplies. -/
theorem upcAdvancesByTheRule : Obligations.UpcAdvancesByTheRule := by
  refine ⟨fun i s u h => ⟨?_, ?_, fun hbnext hfin hkeep hrun hlt => ?_, fun hrun hfatal => ?_⟩,
    fun s u g h hrun => ((stepKeepsACorrectCore s u g h).supplied hrun).upc_le⟩
  · rintro rfl
    exact (execBnext_control h).1
  · rintro rfl
    obtain ⟨hupc, hdone⟩ := execFin_control h
    exact ⟨hupc, by simp [hdone]⟩
  · obtain ⟨r, rfl | ⟨c, rfl⟩, -, -, hupc⟩ := exec_ends h hbnext hfin
    · rw [State.advance_upc_toNat r (by rwa [hupc]), hupc]
    · simp [hrun] at hkeep
  · by_cases hbnext : i = .bnext
    · subst hbnext
      obtain ⟨-, hkeep, -⟩ := execBnext_control h
      simp [hkeep, hrun] at hfatal
    · by_cases hfin : i = .fin
      · subst hfin
        exact (execFin_control h).1
      · obtain ⟨r, rfl | ⟨c, rfl⟩, hkeep, -, hupc⟩ := exec_ends h hbnext hfin
        · simp [hkeep, hrun] at hfatal
        · exact hupc

/-- Settles O33: FIN's two discards field by field, and the rest by its frame. -/
theorem finPublishesAndDiscards : Obligations.FinPublishesAndDiscards :=
  ⟨fun _ => ⟨_, rfl, rfl, rfl, rfl, fun i => Vector.getElem_replicate i.isLt, fun _ => rfl, rfl, rfl, rfl, rfl,
    fun _ => rfl, rfl, unchanged_execFin rfl⟩, rfl, rfl⟩

end Sys2Proof.Safety
end

section
/-! The host (R185, R186, R187): ABORT, its reads, and its message, which nothing writes in `RUN`. -/

namespace Sys2Proof.Safety

open Sys2Proof.Machine

variable {s u : State}

/-- Settles O39: both moves leave the core as after reset. -/
theorem abortHasTheEffectOfReset : Obligations.AbortHasTheEffectOfReset := by
  intro s rest hm
  exact ⟨State.coreReset { s with moves := rest }, step_cons hm, ⟨rfl, rfl, rfl, fun _ => rfl, fun _ => rfl⟩,
    rfl, rfl, rfl, rfl, rfl, rfl⟩

/-- In `DONE` the digest read records the 32 bytes that `DIGEST` holds (R186 (b)). -/
theorem hostReadDigest_of_bytes {bytes : List Byte} (hp : s.phase = .done) (hlen : bytes.length = 32)
    (hbytes : ∀ k, k < 32 → s.digest.read k = bytes[k]?) :
    hostReadDigest s = .next { s with seen := .digest bytes :: s.seen } := by
  have hread : s.digest.readBytes 0 32 = some bytes :=
    (Memory.readBytes_eq_some ..).2 ⟨hlen, fun k hk => by rw [Nat.zero_add]; exact hbytes k hk⟩
  simp only [hostReadDigest, if_pos hp, hread]

/-- What the host has seen is a piece of its own. -/
theorem unchanged_seen (s : State) (x : List Seen) : Unchanged (fun p => p = .seen) s { s with seen := x } := by
  intro p hp; cases p <;> simp_all [Piece.same, spaceOf]

/-- Settles O41: a read only records what it returns, so a second one finds the same. -/
theorem hostReadsStatusAndDigest : Obligations.HostReadsStatusAndDigest :=
  ⟨fun _ => rfl,
    fun s _ hp hlen hbytes => ⟨_, hostReadDigest_of_bytes hp hlen hbytes, rfl, unchanged_seen s _,
      _, hostReadDigest_of_bytes (s := { s with seen := _ }) hp hlen hbytes, rfl⟩,
    fun _ hp => if_neg hp,
    fun _ _ => ⟨step_cons, step_cons⟩⟩

/-- No operation writes the message space, in any of its outcomes (R50, R51). -/
theorem exec_msg {i : Instr} (h : exec i s = .next u) : u.msg = s.msg := by
  cases i with
  | pad => obtain ⟨msg, -, rfl⟩ := execPad_next h; rfl
  | bchk => rcases execBchk_next h with ⟨-, rfl⟩ | ⟨-, rfl⟩ <;> rfl
  | wld j => rcases execWld_next h with ⟨-, rfl⟩ | ⟨-, b0, b1, b2, b3, -, rfl⟩ <;> rfl
  | wexp k => rcases execWexp_next h with ⟨-, rfl⟩ | ⟨-, rfl⟩ <;> rfl
  | ser j => rcases execSer_next h with ⟨-, rfl⟩ | ⟨-, rfl⟩ <;> rfl
  | bnext => cases h; exact State.setT_msg _ _
  | hinit | vinit | rnd k | hadd | fin => cases h; rfl

/-- No step of the core changes the message. -/
theorem coreStep_msg (h : coreStep s = .next u) : u.msg = s.msg := by
  rcases coreStep_next h with ⟨-, rfl⟩ | ⟨-, w, -, ⟨i, -, hx⟩ | ⟨-, rfl⟩⟩
  · rfl
  · exact (exec_msg hx :)
  · rfl

/-- Writing the message changes its bytes only. -/
theorem unchanged_msg (s : State) (m : Memory) : Unchanged (fun p => ∃ a, p = .byte .msg a) s { s with msg := m } := by
  intro p hp
  cases p
  case byte space a => cases space <;> simp_all [Piece.same, spaceOf]
  all_goals simp [Piece.same]

/-- Settles O42: the operations leave the message, and START and the host's write have no move in `RUN`. -/
theorem messageIsFixedInRun : Obligations.MessageIsFixedInRun := by
  refine ⟨fun s u hrun h => ?_, fun _ _ hrun => if_pos hrun, fun s msg hp => ?_, fun _ _ _ => step_cons⟩
  · obtain ⟨rest, hc | ⟨msg, len, -, hs⟩ | ⟨-, rfl⟩ | ⟨x, rfl⟩ | ⟨hp, -⟩⟩ := step_next h
    · exact (coreStep_msg hc :)
    · obtain ⟨hstart, -⟩ := hostStart_next hs
      simp [hrun, Phase.takesStart] at hstart
    · rfl
    · rfl
    · exact absurd hrun hp
  · exact ⟨_, if_neg hp, fun k => (Memory.read_ofBytes 0 k msg).trans (if_pos k.zero_le), unchanged_msg s _⟩

end Sys2Proof.Safety
end

section
/-! The two digests that the source states (R190). -/

namespace Sys2Proof.Machine

theorem beNat_digest_empty :
    beNat (digest []) = 0xe3b0c44298fc1c149afbf4c8996fb92427ae41e4649b934ca495991b7852b855 := by decide +kernel

theorem beNat_digest_abc : beNat (digest [0x61#8, 0x62#8, 0x63#8]) =
    0xba7816bf8f01cfea414140de5dae2223b00361a396177a9cb410ff61f20015ad := by decide +kernel

/-- Settles O35: one block each, evaluated. -/
theorem digestKnownAnswers : Obligations.DigestKnownAnswers := ⟨beNat_digest_empty, beNat_digest_abc⟩

end Sys2Proof.Machine
end

section
/-! Runs of the core (R181, R182, R188): a list of operations that stands in the control store is run in as many steps. -/

namespace Sys2Proof.Safety

open Sys2Proof.Machine

variable {s u r : State} {i : Instr} {m n : Nat}

/-! Runs of any machine of the host's interface. -/

section
variable {M : Host.Core} {x y : M.State}

theorem run_succ_of_step (h : M.step x = .next y) (n : Nat) : M.run (n + 1) x = M.run n y := by
  rw [Host.Core.run, h]

theorem exists_step_of_run_succ (h : M.run (n + 1) x = .next y) : ∃ z, M.step x = .next z ∧ M.run n z = .next y := by
  rw [Host.Core.run] at h
  split at h
  · exact ⟨_, ‹_›, h⟩
  · cases h
  · cases h

/-- A run goes on after its first `m` steps as a run from where they lead. -/
theorem run_add (h : M.run m x = .next y) (n : Nat) : M.run (m + n) x = M.run n y := by
  induction m generalizing x with
  | zero =>
    cases h
    rw [Nat.zero_add]
  | succ m ih =>
    obtain ⟨z, hz, hrest⟩ := exists_step_of_run_succ h
    rw [Nat.succ_add, run_succ_of_step hz, ih hrest]

end

/-! Runs of the core that stay in `RUN`. -/

/-- `n` steps lead from `s` to `u`, and every state before `u` is in `RUN`. -/
structure Runs (n : Nat) (s u : State) : Prop where
  arrives : core.run n s = .next u
  inRun : ∀ k, k < n → ∃ r, core.run k s = .next r ∧ r.phase = .run

theorem Runs.zero (s : State) : Runs 0 s s := ⟨rfl, fun _ hk => absurd hk (Nat.not_lt_zero _)⟩

theorem Runs.one (hp : s.phase = .run) (h : step s = .next u) : Runs 1 s u where
  arrives := run_succ_of_step (M := core) h 0
  inRun k hk := by
    obtain rfl : k = 0 := Nat.lt_one_iff.1 hk
    exact ⟨s, rfl, hp⟩

theorem Runs.trans (h : Runs m s u) (h' : Runs n u r) : Runs (m + n) s r where
  arrives := (run_add h.arrives n).trans h'.arrives
  inRun k hk := by
    by_cases hkm : k < m
    · exact h.inRun k hkm
    · obtain ⟨j, rfl⟩ := Nat.exists_eq_add_of_le (Nat.not_lt.1 hkm)
      obtain ⟨q, hq, hrun⟩ := h'.inRun j (by omega)
      exact ⟨q, (run_add h.arrives j).trans hq, hrun⟩

/-! The core in `RUN` with nothing in its way. -/

/-- `PHASE` is `RUN`, no fatal has been raised, the control store is the table, `upc` holds a value and the outside
makes no move. -/
structure Running (s : State) : Prop where
  phase : s.phase = .run
  noCause : s.fcause = .none
  intact : s.csPatch = []
  upc_held : s.held.upc = true
  quiet : s.moves = []

/-- The next step runs the operation of the address `upc` (R79, R181). -/
theorem Running.step_eq_exec (hs : Running s) (hwf : i.wellFormed = true) (ha : s.upc.toNat = address i) :
    step s = exec i s := by
  have hfetch : fetch s = some (encode i) := by rw [fetch_of_intact s hs.intact, ha, CS_address hwf]
  have hdecode : decode (encode i) = some i := (decodeIsTheInverseOfEncode _ i).2 ⟨hwf, rfl⟩
  rw [step_of_decoded hs.phase hs.quiet hfetch hdecode, hs.upc_held, State.noteRead_true]

theorem Running.runs_one (hs : Running s) (hwf : i.wellFormed = true) (ha : s.upc.toNat = address i)
    (h : exec i s = .next u) : Runs 1 s u :=
  Runs.one hs.phase ((hs.step_eq_exec hwf ha).trans h)

/-- Neither the outside's moves nor what the host has seen stand in an operation's Writes line. -/
theorem exec_outside (h : exec i s = .next u) : u.moves = s.moves ∧ u.seen = s.seen := by
  have hframe := operationsWriteOnlyTheirPieces i s u h
  have hmoves : (Piece.moves).same s u := hframe .moves (by cases i <;> simp [writes, fatalWrites])
  have hseen : (Piece.seen).same s u := hframe .seen (by cases i <;> simp [writes, fatalWrites])
  exact ⟨hmoves, hseen⟩

/-- An operation that stays in `RUN` writes `upc` and raises nothing. -/
theorem exec_stays_in_run (h : exec i s = .next u) (hp : u.phase = .run) :
    u.fcause = s.fcause ∧ u.held.upc = true := by
  by_cases hbnext : i = .bnext
  · subst hbnext
    obtain ⟨-, -, hcause, hheld⟩ := execBnext_control h
    exact ⟨hcause, hheld⟩
  · by_cases hfin : i = .fin
    · subst hfin
      obtain ⟨-, hdone⟩ := execFin_control h
      cases hp.symm.trans hdone
    · obtain ⟨r, rfl | ⟨c, rfl⟩, -, hcause, -⟩ := exec_ends h hbnext hfin
      · exact ⟨hcause, rfl⟩
      · cases hp

theorem Running.after (hs : Running s) (h : exec i s = .next u) (hp : u.phase = .run) : Running u := by
  obtain ⟨hcause, hheld⟩ := exec_stays_in_run h hp
  exact ⟨hp, hcause.trans hs.noCause, (exec_csPatch h).trans hs.intact, hheld, (exec_outside h).1.trans hs.quiet⟩

/-! Operations without a branch. -/

/-- From address `a` on the control store holds these operations, none of which jumps, stops or checks (R79, R83). -/
def straight : Nat → List Instr → Bool
  | _, [] => true
  | a, i :: rest =>
    i.wellFormed && address i == a && i != .bchk && i != .bnext && i != .fin && straight (a + 1) rest

theorem straight_compressOps : straight 3 compressOps = true := by decide +kernel

theorem length_compressOps : compressOps.length = 130 := by simp [compressOps, schedOps]

theorem straight_serializeOps : straight 134 serializeOps = true := by decide +kernel

theorem address_le (hwf : i.wellFormed = true) : address i ≤ 142 := by
  cases i with
  | wld j | ser j => have hj := of_decide_eq_true hwf; simp only [address]; omega
  | wexp k | rnd k => have hk := k.isLt; simp only [address]; omega
  | pad | bchk | hinit | vinit | hadd | bnext | fin => simp [address]

/-- An operation with a word that is none of BCHK, BNEXT and FIN stays in `RUN` and goes to the next address. -/
theorem Running.straight_exec (hs : Running s) (hwf : i.wellFormed = true) (ha : s.upc.toNat = address i)
    (hbchk : i ≠ .bchk) (hbnext : i ≠ .bnext) (hfin : i ≠ .fin) (h : exec i s = .next u) :
    Running u ∧ u.upc.toNat = s.upc.toNat + 1 := by
  have hkeep : u.phase = s.phase := by
    rcases exec_phase h with hkeep | ⟨hi, -⟩ | ⟨hill, -⟩ | ⟨hi, -⟩
    · exact hkeep
    · exact absurd hi hfin
    · simp [hwf] at hill
    · exact absurd hi hbchk
  have hle := address_le hwf
  obtain ⟨hadvance, -⟩ := upcAdvancesByTheRule
  obtain ⟨-, -, hupc, -⟩ := hadvance i s u h
  exact ⟨hs.after h (hkeep.trans hs.phase), hupc hbnext hfin hkeep hs.phase (by omega)⟩

/-- A list of operations goes on where its first does and the rest goes on after it. -/
theorem execAll_cons_next {rest : List Instr} (h : execAll (i :: rest) s = .next u) :
    ∃ r, exec i s = .next r ∧ execAll rest r = .next u := by
  rw [execAll] at h
  split at h
  · exact ⟨_, ‹_›, h⟩
  · cases h
  · cases h

/-- The steps of the core run the operations that stand from `upc` on, one each (R182). -/
theorem Running.runs_execAll {ops : List Instr} (hs : Running s) (hops : straight s.upc.toNat ops = true)
    (h : execAll ops s = .next u) :
    Runs ops.length s u ∧ Running u ∧ u.upc.toNat = s.upc.toNat + ops.length := by
  induction ops generalizing s with
  | nil =>
    cases h
    exact ⟨Runs.zero _, hs, rfl⟩
  | cons i rest ih =>
    obtain ⟨r, hr, hrest⟩ := execAll_cons_next h
    simp only [straight, Bool.and_eq_true, beq_iff_eq, bne_iff_ne] at hops
    obtain ⟨⟨⟨⟨⟨hwf, ha⟩, hbchk⟩, hbnext⟩, hfin⟩, hops⟩ := hops
    obtain ⟨hrunning, hupc⟩ := hs.straight_exec hwf ha.symm hbchk hbnext hfin hr
    obtain ⟨hruns, hlast, hcount⟩ := ih hrunning (hupc ▸ hops) hrest
    have hall := (hs.runs_one hwf ha.symm hr).trans hruns
    rw [Nat.add_comm] at hall
    exact ⟨hall, hlast, by rw [hcount, hupc, List.length_cons]; omega⟩

end Sys2Proof.Safety
end

section
/-! A transaction (R188 to R191): START, the block loop with `H_t` in `H` at its head, and the digest in `DONE`. -/

namespace Sys2Proof.Safety

open Sys2Proof.Machine

variable {msg : List Byte} {s u r : State} {t : Nat}

/-! The blocks of the padded buffer (R90, R110). -/

theorem length_pad_eq_blocks (msg : List Byte) : (pad msg).length = 64 * blockCount msg.length := by
  have hmod := paddedLength_mod_64 msg.length
  rw [length_pad, blockCount]
  omega

theorem blockCount_pos (len : Nat) : 0 < blockCount len := by
  have hlo := (paddedLength_bounds len).1
  rw [blockCount]
  omega

theorem length_block (ht : t < blockCount msg.length) : (block (pad msg) t).length = 64 := by
  have hlen := length_pad_eq_blocks msg
  rw [block, List.length_take, List.length_drop]
  omega

/-- Byte `k` of block `t` stands at `64·t + k` of the buffer. -/
theorem getElem?_block (pb : List Byte) (t : Nat) {k : Nat} (hk : k < 64) :
    (block pb t)[k]? = pb[64 * t + k]? := by
  rw [block, List.getElem?_take_of_lt hk, List.getElem?_drop]

/-! The block loop. -/

/-- A read of registers that all hold a value leaves no record (R36). -/
theorem Recorded.clean {ok : Bool} (h : Recorded ok s u) (hok : ok = true) : u.noValueRead = s.noValueRead := by
  subst hok
  exact h.trans (Bool.or_false _)

/-- `u` is what the core has reached from `s`, in `RUN`, with the padded buffer of `msg` counted and `t` of its blocks
done; no location without a value has been read since `s`. -/
structure Blocks (msg : List Byte) (s : State) (t : Nat) (u : State) : Prop where
  running : Running u
  index : u.t.toNat = t
  index_held : u.held.t = true
  count : u.n.toNat = blockCount msg.length
  count_held : u.held.n = true
  buffer : ∀ k, u.pb.read k = (pad msg)[k]?
  clean : u.noValueRead = s.noValueRead
  seen : u.seen = s.seen

/-- What leaves `N`, `t`, `PB` and the host's side alone, and reads only what holds a value, leaves the blocks as they
are. -/
theorem Blocks.of_unchanged {c : Piece → Prop} (h : Blocks msg s t u) (hrunning : Running r)
    (hclean : r.noValueRead = u.noValueRead) (hframe : Unchanged c u r) (hn : ¬ c .n) (ht : ¬ c .t)
    (hpb : ∀ k, ¬ c (.byte .pb k)) (hseen : ¬ c .seen) : Blocks msg s t r := by
  obtain ⟨hn, hnheld⟩ := hframe .n hn
  obtain ⟨ht, htheld⟩ := hframe .t ht
  exact ⟨hrunning, ht ▸ h.index, htheld ▸ h.index_held, hn ▸ h.count, hnheld ▸ h.count_held,
    fun k => (hframe (.byte .pb k) (hpb k) :).trans (h.buffer k), hclean.trans h.clean,
    (hframe .seen hseen :).trans h.seen⟩

/-- With `t` blocks done the core stands at the head of the block loop, or after it when none remains, with `H_t` in
`H`. -/
structure AtBlock (msg : List Byte) (s : State) (t : Nat) (u : State) : Prop extends Blocks msg s t u where
  upc : u.upc.toNat = if t < blockCount msg.length then 3 else 134
  hash : u.h = hashState msg t
  hash_held : u.held.h = true

/-! From START to the block loop. -/

/-- START leaves the core running from address 0. -/
theorem running_begin (hp : s.csPatch = []) (hm : s.moves = []) (msg : List Byte) : Running (s.begin msg) :=
  ⟨rfl, rfl, hp, rfl, hm⟩

/-- PAD and BCHK lead from START to address 2, with the padded message in `PB` and its blocks counted. -/
theorem runs_to_counted (hp : s.csPatch = []) (hm : s.moves = []) (hlen : msg.length < 2 ^ 61) :
    ∃ u, Runs 2 (s.begin msg) u ∧ u.upc.toNat = 2 ∧ Blocks msg s 0 u := by
  have hbegin := running_begin hp hm msg
  have hlen' := State.begin_len_toNat s hlen
  have hpad : exec .pad (s.begin msg) = .next ((s.begin msg).padded msg) :=
    execPad_of_message hlen'.symm fun k _ => State.begin_msg_read s msg k
  obtain ⟨hpadded, hnext⟩ := hbegin.straight_exec (i := .pad) rfl rfl nofun nofun nofun hpad
  have hupc : ((s.begin msg).padded msg).upc.toNat = 1 := hnext
  have hplen : ((s.begin msg).padded msg).plen.toNat = paddedLength msg.length :=
    (ofNat_paddedLength_toNat (s.begin msg).len).trans (congrArg paddedLength hlen')
  have hwhole : ((s.begin msg).padded msg).plen.toNat % 64 = 0 := hplen ▸ paddedLength_mod_64 _
  obtain ⟨u, hbchk, hn, ht, hnheld, htheld, ⟨hadvance, -⟩, hclean, hframe⟩ :=
    bchkCountsBlocksOrRaisesFatalOne.1 _ hwhole
  have hphase : u.phase = .run := (hframe .phase (by simp [writes, hwhole]) :).trans hpadded.phase
  have hclean' : u.noValueRead = s.noValueRead := (hclean.clean rfl).trans (Bool.or_false _)
  refine ⟨u, (hbegin.runs_one (i := .pad) rfl rfl hpad).trans (hpadded.runs_one (i := .bchk) rfl hupc hbchk),
    hadvance (by rw [hupc]; decide), hpadded.after hbchk hphase, ?_, htheld, ?_, hnheld,
    fun k => ?_, hclean', (hframe .seen (by simp [writes, hwhole]) :)⟩
  · rw [ht]; rfl
  · rw [hn, hplen]; rfl
  · exact (hframe (.byte .pb k) (by simp [writes, hwhole]) :).trans
      ((Memory.read_ofBytes 0 k _).trans (if_pos k.zero_le))

/-- HINIT leads on to the head of the block loop, with `H_0` in `H`. -/
theorem runs_to_first_block (hp : s.csPatch = []) (hm : s.moves = []) (hlen : msg.length < 2 ^ 61) :
    ∃ u, Runs 3 (s.begin msg) u ∧ AtBlock msg s 0 u := by
  obtain ⟨c, hruns, hupc, hblocks⟩ := runs_to_counted hp hm hlen
  obtain ⟨u, hexec, hh, hhheld, -, hframe⟩ := hinitSeedsTheHashState.1 c
  obtain ⟨hseeded, hupc'⟩ := hblocks.running.straight_exec (i := .hinit) rfl hupc nofun nofun nofun hexec
  have hclean : u.noValueRead = c.noValueRead := hframe .noValueRead (by simp [writes])
  have hblocks' : Blocks msg s 0 u :=
    hblocks.of_unchanged hseeded hclean hframe (by simp [writes]) (by simp [writes]) (by simp [writes])
      (by simp [writes])
  have hhead : u.upc.toNat = if 0 < blockCount msg.length then 3 else 134 := by
    rw [hupc', hupc, if_pos (blockCount_pos _)]
  exact ⟨u, hruns.trans (hblocks.running.runs_one (i := .hinit) rfl hupc hexec), hblocks', hhead,
    Vector.ext fun j hj => hh ⟨j, hj⟩, hhheld⟩

/-! Once round the loop (R182): the loop body takes `H_t` to `H_{t+1}`, and BNEXT counts the block. -/

/-- BNEXT counts a block done, and goes back to the head of the loop while one remains. -/
theorem Blocks.bnext (h : Blocks msg s t u) (ht : t < blockCount msg.length) (hupc : u.upc.toNat = 133) :
    ∃ r, Runs 1 u r ∧ Blocks msg s (t + 1) r ∧
      (r.upc.toNat = if t + 1 < blockCount msg.length then 3 else 134) ∧ r.h = u.h ∧ r.held.h = u.held.h := by
  obtain ⟨r, hexec, hindex, hindexheld, hmore, hlast, -, hclean, hframe⟩ := bnextLoopsWhileABlockRemains.1 u
  have hlt := u.n.isLt
  rw [h.index, h.count] at hmore hlast
  rw [h.count] at hlt
  obtain ⟨hn, hnheld⟩ := hframe .n (by simp [writes])
  obtain ⟨hh, hhheld⟩ := hash_eq fun j => hframe (.h j) (by simp [writes])
  have hphase : r.phase = .run := (hframe .phase (by simp [writes]) :).trans h.running.phase
  have hclean' := hclean.clean (by rw [h.index_held, h.count_held]; rfl)
  refine ⟨r, h.running.runs_one (i := .bnext) rfl hupc hexec,
    ⟨h.running.after hexec hphase, ?_, hindexheld, hn ▸ h.count, hnheld ▸ h.count_held,
      fun k => (hframe (.byte .pb k) (by simp [writes]) :).trans (h.buffer k), hclean'.trans h.clean,
      (hframe .seen (by simp [writes]) :).trans h.seen⟩, ?_, hh, hhheld⟩
  · rw [hindex (by rw [h.index]; omega), h.index]
  · split_ifs with hcount
    · rw [hmore hcount]; rfl
    · rw [hlast hcount]; rfl

theorem AtBlock.next (h : AtBlock msg s t u) (ht : t < blockCount msg.length) :
    ∃ r, Runs 131 u r ∧ AtBlock msg s (t + 1) r := by
  have hblock : ∀ k, k < 64 → u.pb.read (64 * u.t.toNat + k) = (block (pad msg) t)[k]? := fun k hk => by
    rw [h.buffer, h.index, getElem?_block _ _ hk]
  obtain ⟨v, hexec, hh, -, hhheld, hclean, hframe⟩ := compressFoldsOneBlock u _ (length_block ht) hblock
  have hhead : u.upc.toNat = 3 := h.upc.trans (if_pos ht)
  obtain ⟨hruns, hrunning, hupc⟩ := h.running.runs_execAll (hhead ▸ straight_compressOps) hexec
  rw [length_compressOps] at hruns hupc
  have hclean' := hclean.clean (by rw [h.index_held, h.hash_held]; rfl)
  have hblocks : Blocks msg s t v :=
    h.toBlocks.of_unchanged hrunning hclean' hframe (by simp) (by simp) (by simp) (by simp)
  obtain ⟨r, hbnext, hnext, hupc', hh', hhheld'⟩ := hblocks.bnext ht (by rw [hupc, hhead])
  exact ⟨r, hruns.trans hbnext, hnext, hupc', by rw [hh', hh, h.hash]; rfl, hhheld'.trans hhheld⟩

/-- All `N` blocks take `131·N` steps (R188). -/
theorem AtBlock.all_blocks (h : AtBlock msg s 0 u) :
    ∀ k, k ≤ blockCount msg.length → ∃ r, Runs (131 * k) u r ∧ AtBlock msg s k r := by
  intro k hk
  induction k with
  | zero => exact ⟨u, Runs.zero u, h⟩
  | succ k ih =>
    obtain ⟨v, hv, hat⟩ := ih (Nat.le_of_succ_le hk)
    obtain ⟨r, hr, hnext⟩ := hat.next hk
    exact ⟨r, hv.trans hr, hnext⟩

/-! The end of the transaction (R171, R184, R191). -/

/-- SERIALIZE and FIN publish `Serialize(H_N)`, the digest of the message. -/
theorem AtBlock.publishes (h : AtBlock msg s (blockCount msg.length) u) :
    ∃ r, Runs 9 u r ∧ r.phase = .done ∧ r.fcause = .none ∧ r.noValueRead = s.noValueRead ∧ r.moves = [] ∧
      r.seen = s.seen ∧ ∀ k, k < 32 → r.digest.read k = (digest msg)[k]? := by
  obtain ⟨v, hexec, hbytes, hclean, hframe⟩ := serializeWritesTheDigest.1 u
  have hafter : u.upc.toNat = 134 := h.upc.trans (if_neg (Nat.lt_irrefl _))
  obtain ⟨hruns, hrunning, hupc⟩ := h.running.runs_execAll (hafter ▸ straight_serializeOps) hexec
  have hseen : v.seen = u.seen := hframe .seen (by simp)
  obtain ⟨r, hfin, hdone, -, -, -, -, -, -, -, -, hdigest, -, hframe'⟩ := finPublishesAndDiscards.1 v
  obtain ⟨hmoves', hseen'⟩ := exec_outside hfin
  have hcause : r.fcause = v.fcause := hframe' .fcause (by simp [writes])
  have hclean' : r.noValueRead = v.noValueRead := hframe' .noValueRead (by simp [writes])
  refine ⟨r, hruns.trans (hrunning.runs_one (i := .fin) rfl (by rw [hupc, hafter]; rfl) hfin), hdone,
    hcause.trans hrunning.noCause, hclean'.trans ((hclean.clean h.hash_held).trans h.clean), hmoves'.trans hrunning.quiet,
    hseen'.trans (hseen.trans h.seen), fun k hk => ?_⟩
  rw [hdigest, hbytes k hk, h.hash]
  rfl

/-- The run of a transaction, from the state that START leaves to `DONE` (R188, R191). -/
theorem transaction_runs (hp : s.csPatch = []) (hm : s.moves = []) (hlen : msg.length < 2 ^ 61) :
    ∃ u, Runs (12 + 131 * blockCount msg.length) (s.begin msg) u ∧ u.phase = .done ∧ u.fcause = .none ∧
      u.noValueRead = s.noValueRead ∧ u.moves = [] ∧ u.seen = s.seen ∧
      ∀ k, k < 32 → u.digest.read k = (digest msg)[k]? := by
  obtain ⟨v, hv, hfirst⟩ := runs_to_first_block hp hm hlen
  obtain ⟨w, hw, hlast⟩ := hfirst.all_blocks _ le_rfl
  obtain ⟨u, hu, hpublished⟩ := hlast.publishes
  have hruns := (hv.trans hw).trans hu
  rw [show 3 + 131 * blockCount msg.length + 9 = 12 + 131 * blockCount msg.length by omega] at hruns
  exact ⟨u, hruns, hpublished⟩

/-- A step on which the outside makes the move `m` (log entry 6). -/
theorem step_with_move (s : State) (m : Move) :
    step { s with moves := [m] } = outsideMove Config.LMAX m { s with moves := [] } := rfl

theorem length_digest (msg : List Byte) : (digest msg).length = 32 := length_serialize _

/-- Settles O36: START is accepted, the run is PAD, BCHK, HINIT, the loop by its invariant, SERIALIZE and FIN, and the
read finds the 32 bytes. -/
theorem transactionComputesTheDigest : Obligations.TransactionComputesTheDigest := by
  intro s msg hp hpatch hlen
  obtain ⟨u, hruns, hdone, hcause, hclean, hmoves, hseen, hbytes⟩ :=
    transaction_runs (s := { s with moves := [] }) hpatch rfl (Nat.lt_of_le_pred (by decide) hlen)
  have hquiet : { u with moves := [] } = u := by rw [← hmoves]
  have hread := hostReadDigest_of_bytes hdone (length_digest msg) hbytes
  rw [hseen] at hread
  refine ⟨_, u, (step_with_move s _).trans (hostStart_accepted hp hlen), hruns.arrives, hdone, hcause, hclean, ?_,
    hruns.inRun⟩
  rw [step_with_move, hquiet]
  exact hread

end Sys2Proof.Safety
end

section
/-! Exceptions (R204, R211): the reserved word raises Fatal(2), and `FATAL` waits for ABORT or reset. -/

namespace Sys2Proof.Safety

open Sys2Proof.Machine

variable {s u : State}

/-- Settles O12: the core's step notes the read of `upc` and raises. -/
theorem reservedWordRaisesFatalTwo : Obligations.ReservedWordRaisesFatalTwo := by
  intro s w hp hm hw hd
  refine ⟨_, (step_nil hm).trans (coreStep_of_reserved hp hw hd), rfl, rfl, rfl, ?_⟩
  exact ((unchanged_noteRead s _).trans (unchanged_raiseFatal _ _)).mono fun p hp => hp.symm

/-- What the outside does next is a piece of its own. -/
theorem unchanged_moves (s : State) (x : List Move) : Unchanged (fun p => p = .moves) s { s with moves := x } := by
  intro p hp; cases p <;> simp_all [Piece.same, spaceOf]

/-- ABORT and reset leave no value in the core (R37, R185). -/
theorem emptied_coreReset (s : State) : Emptied s.coreReset := ⟨rfl, rfl, rfl, fun _ => rfl, fun _ => rfl⟩

/-- What a step from `FATAL` can do: empty the core, by ABORT or reset, or leave the core as it is (R204). -/
theorem step_next_of_fatal (hp : s.phase = .fatal) (h : step s = .next u) :
    ((∃ rest, s.moves = .abort :: rest ∨ s.moves = .reset :: rest) ∧ Emptied u) ∨
    Unchanged (fun p => p = .moves ∨ p = .seen ∨ ∃ a, p = .byte .msg a) s u := by
  obtain ⟨rest, hc | ⟨msg, len, -, hs⟩ | ⟨hm, rfl⟩ | ⟨x, rfl⟩ | ⟨-, msg, rfl⟩⟩ := step_next h
  · rcases coreStep_next hc with ⟨-, rfl⟩ | ⟨hrun, -⟩
    · exact .inr ((unchanged_moves s rest).mono fun p => .inl)
    · cases hp.symm.trans hrun
  · obtain ⟨hstart, -⟩ := hostStart_next hs
    simp [hp, Phase.takesStart] at hstart
  · exact .inl ⟨⟨rest, hm⟩, emptied_coreReset _⟩
  · exact .inr (((unchanged_moves s rest).trans (unchanged_seen _ _)).mono fun p => Or.imp_right .inl)
  · exact .inr (((unchanged_moves s rest).trans (unchanged_msg _ _)).mono fun p => Or.imp_right .inr)

/-- Outside `RUN` the core waits, so it fetches nothing and does not fault (R181). -/
theorem coreStep_ne_fault_of_not_run (hp : s.phase ≠ .run) (f : Fault) : coreStep s ≠ .fault f := by
  rw [coreStep_of_not_run hp]
  nofun

/-- The digest read that could miss a byte is refused outside `DONE` (R186 (b)). -/
theorem hostReadDigest_ne_fault_of_not_done (hp : s.phase ≠ .done) (f : Fault) : hostReadDigest s ≠ .fault f := by
  rw [hostReadDigest, if_neg hp]
  nofun

/-- No move of the outside faults on a core that neither runs nor holds a digest to read. -/
theorem outsideMove_ne_fault_of_waiting (lmax : Config.Limit) (m : Move) (hrun : s.phase ≠ .run)
    (hdone : s.phase ≠ .done) (f : Fault) : outsideMove lmax m s ≠ .fault f := by
  cases m with
  | wait => exact coreStep_ne_fault_of_not_run hrun f
  | start msg len => exact hostStart_ne_fault lmax msg len s f
  | readDigest => exact hostReadDigest_ne_fault_of_not_done hdone f
  | writeMsg msg => exact hostWriteMsg_ne_fault msg s f
  | abort | reset | readStatus => nofun

/-- Faults do not nest (R204). -/
theorem step_ne_fault_of_fatal (hp : s.phase = .fatal) (f : Fault) : step s ≠ .fault f := by
  have hrun : s.phase ≠ .run := by simp [hp]
  have hdone : s.phase ≠ .done := by simp [hp]
  rcases step_cases s with ⟨-, hs⟩ | ⟨m, rest, -, hs⟩ <;> rw [hs]
  · exact coreStep_ne_fault_of_not_run hrun f
  · exact outsideMove_ne_fault_of_waiting (s := { s with moves := rest }) Config.LMAX m hrun hdone f

/-- Settles O44: what a step from `FATAL` can do, that it does not fault, and that START is refused. -/
theorem fatalIsLeftByAbortOrResetOnly : Obligations.FatalIsLeftByAbortOrResetOnly :=
  ⟨fun _ _ => step_next_of_fatal, fun _ f hp => step_ne_fault_of_fatal hp f,
    fun _ _ _ _ hp => hostStart_refused (.inr (.inl hp))⟩

end Sys2Proof.Safety
end

section
/-! Reset (R220): in any phase it leaves the core without values, and the core then waits for START. -/

namespace Sys2Proof.Safety

open Sys2Proof.Machine

variable {s : State}

/-- The platform's reset is accepted in every phase (R220). -/
theorem step_reset {rest : List Move} (hm : s.moves = .reset :: rest) :
    step s = .next (State.coreReset { s with moves := rest }) := step_cons hm

/-- After reset or ABORT the core is in `IDLE`, where it does nothing of its own (R181, R220). -/
theorem coreStep_coreReset (s : State) : coreStep s.coreReset = .next s.coreReset :=
  coreStep_of_not_run (by simp)

/-- Settles O38: the step is the reset, whose state holds no value, keeps what is not the core's, and waits. -/
theorem resetMayFallInAnyPhase : Obligations.ResetMayFallInAnyPhase := fun _ _ hm =>
  ⟨_, step_reset hm, emptied_coreReset _, rfl, rfl, rfl, rfl, rfl, coreStep_coreReset _⟩

end Sys2Proof.Safety
end
